-- ==== Sys2Proof/Word.lean ====
section
/-! DEFINITION. The word types of the model (00_scope.md R6, R7; 10_state.md R24). -/

namespace Sys2Proof

/-- A byte is 8 bits (10_state.md R24; PRESUMED, the spec's own general knowledge G8). -/
abbrev Byte := BitVec 8

/-- RFLAGS, the stack-pointer register and the instruction pointer are held in 64 bits (00_scope.md R7). -/
abbrev Quad := BitVec 64

/-- An exception's error code. The spec gives it no width (60_exceptions.md R90, R93). -/
abbrev ErrorCode := Nat

end Sys2Proof
end

