-- ==== Sys2Proof/Config.lean ====
section
/-! DEFINITION. The types of the parameters that the page leaves to the context of execution (00_scope.md R5).
Their VALUES are fields of State, so that every claim about a state holds for each of them; nothing here picks one. -/

namespace Sys2Proof

/-- The five modes (00_scope.md R5, 10_state.md R19): real-address, protected, compatibility, 64-bit and
virtual-8086 mode. -/
inductive Mode where
  | real
  | prot
  | compat
  | long64
  | v86
  deriving DecidableEq, Repr

/-- 16, 32 or 64 bits: the operand-size attribute (10_state.md R20) and the stack-address size (10_state.md R21). -/
inductive Width where
  | w16
  | w32
  | w64
  deriving DecidableEq, Repr

/-- The width in bits. -/
def Width.bits : Width → Nat
  | .w16 => 16
  | .w32 => 32
  | .w64 => 64

/-- The width in bytes: what a pop of that size reads (20_memory.md R33). -/
def Width.bytes : Width → Nat
  | .w16 => 2
  | .w32 => 4
  | .w64 => 8

/-- `DefaultOperandSize`, the code segment's default: 16 or 32 (00_scope.md R5). -/
inductive DefaultSize where
  | d16
  | d32
  deriving DecidableEq, Repr

/-- All that decoding depends on besides the bytes: the mode and the default size (30_encoding.md R60). -/
structure CodeContext where
  mode : Mode
  dflt : DefaultSize
  deriving DecidableEq, Repr

end Sys2Proof
end

