-- ==== Sys2Proof/Syntax.lean ====
section
/-! DEFINITION. The instructions as syntax: one constructor per row of spec/opcode_table.json, each with the prefix
bytes it stands behind, in order (30_encoding.md R50, R54). The opcode has no operand (R52). -/

namespace Sys2Proof

/-- The two prefixes the page names (30_encoding.md R50): the operand-size override and LOCK. -/
inductive Pfx where
  | opSize
  | lock
  deriving DecidableEq, Repr

/-- POPF pops 16 bits, POPFD 32, POPFQ 64 (30_encoding.md R54, R61). The prefixes are kept because LOCK decides the
#UD (R56) and their number the length (R50). -/
inductive Instr where
  | popf (pre : List Pfx)
  | popfd (pre : List Pfx)
  | popfq (pre : List Pfx)
  deriving DecidableEq, Repr

/-- The prefixes before the opcode byte, first byte first. -/
def Instr.prefixes : Instr → List Pfx
  | .popf pre => pre
  | .popfd pre => pre
  | .popfq pre => pre

/-- `OperandSize` of the mnemonic (30_encoding.md R54). -/
def Instr.size : Instr → Width
  | .popf _ => .w16
  | .popfd _ => .w32
  | .popfq _ => .w64

/-- `L`, the length in bytes: one opcode byte plus the prefix bytes (30_encoding.md R50). -/
def Instr.length (i : Instr) : Nat := i.prefixes.length + 1

end Sys2Proof
end

