-- ==== Sys2Proof/Decode.lean ====
section
/-! DEFINITION. From bytes to an instruction and back (30_encoding.md). Decoding depends on the mode and on
DefaultOperandSize, because the three mnemonics share the opcode byte 9D (R54, R55, R60). -/

namespace Sys2Proof

/-- The opcode byte, binary 1001 1101 (30_encoding.md R50). -/
def opcodeByte : Byte := 0b10011101#8

/-- The byte of a prefix: `66` and `F0` (30_encoding.md R50; PRESUMED, the spec's own general knowledge G14, log 15). -/
def Pfx.byte : Pfx → Byte
  | .opSize => 0x66#8
  | .lock => 0xF0#8

/-- The prefix a byte stands for, if it is one of the two admitted ones. -/
def pfxOf (b : Byte) : Option Pfx :=
  if b = 0x66#8 then some .opSize else if b = 0xF0#8 then some .lock else none

/-- Why the decoder refuses a byte string (30_encoding.md R58, R59; all of them safe: the model says nothing of what
the processor does there). -/
inductive DecodeError where
  /-- A segment-override prefix: not admitted (R58). -/
  | segmentOverride (b : Byte)
  /-- The address-size prefix `67`: not admitted (R58). -/
  | addressSize
  /-- A repeat prefix `F2` or `F3`: not admitted (R58). -/
  | repeatPrefix (b : Byte)
  /-- A REX prefix `40` to `4F` in 64-bit mode: not admitted (R58). -/
  | rex (b : Byte)
  /-- A byte that begins a VEX or EVEX prefix: not admitted (R58). -/
  | vex (b : Byte)
  /-- LOCK more than once: not among the admitted byte strings (R58, log 16). -/
  | repeatedLock
  /-- An opcode byte other than `9D`: not in scope, and no #UD (R59). -/
  | opcodeNotInScope (b : Byte)
  /-- The bytes end before the opcode byte. -/
  | truncated
  deriving DecidableEq, Repr

/-- The name under which a byte that is neither `9D` nor an admitted prefix is refused (30_encoding.md R58, R59). -/
def rejectName (m : Mode) (b : Byte) : DecodeError :=
  if b = 0x26#8 ∨ b = 0x2E#8 ∨ b = 0x36#8 ∨ b = 0x3E#8 ∨ b = 0x64#8 ∨ b = 0x65#8 then .segmentOverride b
  else if b = 0x67#8 then .addressSize
  else if b = 0xF2#8 ∨ b = 0xF3#8 then .repeatPrefix b
  else if m = .long64 ∧ b.extractLsb' 4 4 = 4#4 then .rex b
  else if b = 0xC4#8 ∨ b = 0xC5#8 ∨ b = 0x62#8 then .vex b
  else .opcodeNotInScope b

/-- `OperandSize` from the context and the presence of `66`: the table of 30_encoding.md R55 (PRESUMED, decision D2,
log 14). -/
def operandSize (c : CodeContext) (override : Bool) : Width :=
  match c.mode, c.dflt with
  | .long64, _ => if override then .w16 else .w64
  | .real, _ => if override then .w32 else .w16
  | .v86, _ => if override then .w32 else .w16
  | .prot, .d16 => if override then .w32 else .w16
  | .compat, .d16 => if override then .w32 else .w16
  | .prot, .d32 => if override then .w16 else .w32
  | .compat, .d32 => if override then .w16 else .w32

/-- The mnemonic of an operand size (30_encoding.md R54). -/
def instrOf (w : Width) (pre : List Pfx) : Instr :=
  match w with
  | .w16 => .popf pre
  | .w32 => .popfd pre
  | .w64 => .popfq pre

/-- The prefix bytes up to `9D`, which ends the instruction, and the bytes after it (30_encoding.md R58, R60). -/
def scanPrefixes (m : Mode) : List Byte → Except DecodeError (List Pfx × List Byte)
  | [] => .error .truncated
  | b :: bs =>
    if b = opcodeByte then .ok ([], bs)
    else match pfxOf b with
      | none => .error (rejectName m b)
      | some p => match scanPrefixes m bs with
        | .error e => .error e
        | .ok (ps, rest) =>
          if p = .lock ∧ Pfx.lock ∈ ps then .error .repeatedLock else .ok (p :: ps, rest)

/-- The decoder: total on any bytes, it answers the instruction and the bytes after it, or a refusal by name. A
repeated `66` counts once (30_encoding.md R55). -/
def decode (c : CodeContext) (bs : List Byte) : Except DecodeError (Instr × List Byte) :=
  match scanPrefixes c.mode bs with
  | .error e => .error e
  | .ok (ps, rest) => .ok (instrOf (operandSize c (ps.contains .opSize)) ps, rest)

/-- The encoder: the prefix bytes and then the opcode byte (30_encoding.md R50). -/
def encode (i : Instr) : List Byte := i.prefixes.map Pfx.byte ++ [opcodeByte]

/-- The lowest `n` bytes of `w`, lowest first: the first byte of an instruction holds bits 7 to 0. -/
def wordBytes : Nat → Nat → List Byte
  | 0, _ => []
  | n + 1, w => BitVec.ofNat 8 w :: wordBytes n (w / 256)

/-- How many bytes a table word is laid out in: 15, the family's longest instruction (30_encoding.md R60), or more if
the word has more bits. -/
def tableBytes (nbits : Nat) : Nat := max 15 ((nbits + 7) / 8)

/-- The context right after reset: real-address mode, default size 16 (log 1, log 2). -/
def resetContext : CodeContext := ⟨.real, .d16⟩

/-- The instruction the decoder reads from a table word in the context after reset (log 28: the three rows of the
opcode table share the word `9D`, and outside a context they cannot be told apart). -/
def decodeTableWord (nbits w : Nat) : Option Instr :=
  match decode resetContext (wordBytes (tableBytes nbits) (w % 2 ^ nbits)) with
  | .ok (i, _) => some i
  | .error _ => none

end Sys2Proof
end

