-- ==== Sys2Proof/Machine/State.lean ====
section
/-! DEFINITION. The state of the machine, the reasons a step can stop, and the state after reset (10_state.md). -/

namespace Sys2Proof.Machine

/-- One stack access as `StackAccess` is asked for it: the offset in the stack segment and the size (20_memory.md R36). -/
structure Access where
  off : Quad
  size : Width
  deriving DecidableEq, Repr

/-- Memory: (address, byte) pairs, addresses strictly rising, no entry equal to what an unlisted address reads as. -/
abbrev Memory := List Host.Cell

/-- Everything the spec gives the machine. INVENTORY.md lists each field with its rule and its reset value.
An instruction of this spec writes `rflags`, `rsp` and `ip` and nothing else (10_state.md R29). -/
structure State where
  /-- RFLAGS; EFLAGS is its bits 31 to 0, FLAGS its bits 15 to 0 (10_state.md R10). -/
  rflags : Quad
  /-- The stack-pointer register, of which SP is the low `stackAddrSize` bits (10_state.md R21). -/
  rsp : Quad
  /-- The address of the first byte of the next instruction, as an offset from `codeBase` (10_state.md R23). -/
  ip : Quad
  /-- The current privilege level, 0 to 3 (10_state.md R17). -/
  cpl : BitVec 2
  /-- The mode (00_scope.md R5, 10_state.md R19). -/
  mode : Mode
  /-- CR0.PE (10_state.md R18). -/
  cr0PE : Bool
  /-- CR0.AM, read only by the default of `AlignCheckEnabled` (10_state.md R18, 20_memory.md R35). -/
  cr0AM : Bool
  /-- CR4.VME (10_state.md R18). -/
  cr4VME : Bool
  /-- CR4.PVI, which no rule reads (10_state.md R18, 40_popf.md R74). -/
  cr4PVI : Bool
  /-- `HasVME`: whether the processor has the virtual-8086 mode extensions (00_scope.md R5). -/
  hasVME : Bool
  /-- `DefaultOperandSize` (00_scope.md R5, 30_encoding.md R55). -/
  defaultSize : DefaultSize
  /-- `StackAddrSize` (00_scope.md R5, 10_state.md R21). -/
  stackAddrSize : Width
  /-- The base of the stack segment (20_memory.md R37). -/
  stackBase : Quad
  /-- The base of the code segment (10_state.md R27). -/
  codeBase : Quad
  /-- `AlignCheckEnabled`: `none` for the default of 20_memory.md R35, `some b` where the launch fixes its value. -/
  alignCheck : Option Bool
  /-- The accesses for which `StackAccess` answers #SS (20_memory.md R36). -/
  ssFaults : List Access
  /-- The accesses for which `StackAccess` answers #PF, each with its PFErrorCode (20_memory.md R36, 60_exceptions.md R93). -/
  pageFaults : List (Access × ErrorCode)
  /-- Memory, code and stack alike (10_state.md R24). -/
  mem : Memory
  deriving DecidableEq, Repr

/-- The exceptions of 60_exceptions.md R90, each with its error code. A raise ends the step with nothing written
(R99) and is not delivered (R100): safe, since nothing is claimed of what a handler does. -/
inductive Fault where
  /-- #UD, no code: raised by the LOCK prefix (R91). Safe. -/
  | ud
  /-- #SS: raised by the stack read; the code is 0, and in real-address mode there is none (R92). Safe. -/
  | ss (code : Option ErrorCode)
  /-- #GP(code): raised in virtual-8086 mode with IOPL < 3; the code is 0 (R95). Safe. -/
  | gp (code : ErrorCode)
  /-- #PF(fault-code): raised by the stack read outside real-address mode (R93). Safe. -/
  | pf (code : ErrorCode)
  /-- #AC(code): raised by an unaligned stack read while alignment checking applies; the code is 0 (R94). Safe. -/
  | ac (code : ErrorCode)
  deriving DecidableEq, Repr

/-- Where the model says nothing of the processor. All are safe: no claim is made of what happens there. -/
inductive Refusal where
  /-- An instruction without a meaning yet; no arm of this model answers it. Safe. -/
  | notModelled (mnemonic : String)
  /-- Raised by step: the bytes at ip are no admitted form (30_encoding.md R58, R59). Safe. -/
  | undecodable (e : DecodeError)
  /-- Raised by every meaning: operand size 32 in 64-bit mode or 64 outside it, N.E. (30_encoding.md R54). Safe. -/
  | notEncodable
  /-- Raised by every meaning: CR0.PE = 0 with EFLAGS.VM = 1 (10_state.md R19, D16). Safe. -/
  | vmWithoutPE
  /-- Raised by every meaning: the mode does not agree with CR0.PE and EFLAGS.VM (70_reset_and_hazards.md R117). Safe. -/
  | modeInconsistent
  /-- Raised by every meaning: virtual-8086 mode with CPL other than 3 (10_state.md R17, D19). Safe. -/
  | v86NotAtLevel3
  /-- Raised by every meaning: StackAddrSize is 64 and the mode is not 64-bit mode, or the other way round (D3). Safe. -/
  | stackSizeInconsistent
  /-- Raised by every meaning: CR4.VME = 1 on a processor without VME (10_state.md R18, D22). Safe. -/
  | vmeAbsent
  /-- Raised by every meaning and by step: ip + L would wrap the instruction pointer's width (10_state.md R23, D7). Safe. -/
  | ipWraps
  deriving DecidableEq, Repr

/-- The state after reset. The spec states no reset value for anything (10_state.md R27, 70_reset_and_hazards.md R115):
the values are the family's as R27's last column gives them (PRESUMED, log 1), and for the parameters that column does
not name those of log 2 and log 34. The stack segment's limit 0xFFFF stands as the accesses that pass it (log 5). -/
def State.reset : State where
  rflags := 0x2#64
  rsp := 0#64
  ip := 0xFFF0#64
  cpl := 0#2
  mode := .real
  cr0PE := false
  cr0AM := false
  cr4VME := false
  cr4PVI := false
  hasVME := true
  defaultSize := .d16
  stackAddrSize := .w16
  stackBase := 0#64
  codeBase := 0xFFFF0000#64
  alignCheck := none
  ssFaults := [⟨0xFFFD#64, .w32⟩, ⟨0xFFFE#64, .w32⟩, ⟨0xFFFF#64, .w32⟩, ⟨0xFFFF#64, .w16⟩]
  pageFaults := []
  mem := []

end Sys2Proof.Machine
end

