-- ==== Sys2Proof/Machine/Flags.lean ====
section
/-! DEFINITION. The flags register: positions, masks and the two ways an execution computes its new value
(10_state.md R10 to R16, 40_popf.md R66, R71, R72). -/

namespace Sys2Proof.Machine

/-- The 17 flags and fields (10_state.md R11), in its order. `fi` is IF, the interrupt flag. -/
inductive Flag where
  | cf | pf | af | zf | sf | tf | fi | df | of | iopl | nt | rf | vm | ac | vif | vip | id
  deriving DecidableEq, Repr

/-- The bit positions of a flag or field in RFLAGS (10_state.md R11). -/
def Flag.bits : Flag → List Nat
  | .cf => [0]
  | .pf => [2]
  | .af => [4]
  | .zf => [6]
  | .sf => [7]
  | .tf => [8]
  | .fi => [9]
  | .df => [10]
  | .of => [11]
  | .iopl => [12, 13]
  | .nt => [14]
  | .rf => [16]
  | .vm => [17]
  | .ac => [18]
  | .vif => [19]
  | .vip => [20]
  | .id => [21]

/-- The value of the IOPL field, bits 13:12, an unsigned number 0 to 3 (10_state.md R16). -/
def ioplOf (r : Quad) : BitVec 2 := r.extractLsb' 12 2

/-- `BASE`: CF, PF, AF, ZF, SF, TF, DF, OF, NT (40_popf.md, table of constants). -/
def mBase : Quad := 0x00004DD5#64

/-- `M_IF`. -/
def mIf : Quad := 0x00000200#64

/-- `M_IOPL`. -/
def mIopl : Quad := 0x00003000#64

/-- `M_WIDE`: AC and ID. -/
def mWide : Quad := 0x00240000#64

/-- `M_RF`. -/
def mRf : Quad := 0x00010000#64

/-- `M_VIF`. -/
def mVif : Quad := 0x00080000#64

/-- `priv0`: real-address mode, or level 0 outside virtual-8086 mode (40_popf.md R66). -/
def priv0 (pe vm : Bool) (cpl : BitVec 2) : Bool := !pe || (!vm && cpl == 0#2)

/-- `WriteMask`: the RFLAGS bits copied from the stack value outside the virtual-8086 IOPL < 3 path (40_popf.md R66).
IF needs a level at least as privileged as the OLD IOPL, IOPL needs `priv0`, AC and ID need a pop wider than 16 bits. -/
def writeMask (pe vm : Bool) (cpl iopl : BitVec 2) (size : Width) : Quad :=
  mBase ||| (if priv0 pe vm cpl || decide (cpl ≤ iopl) then mIf else 0#64)
    ||| (if priv0 pe vm cpl then mIopl else 0#64)
    ||| (if size = .w16 then 0#64 else mWide)

/-- The part of the stack value that can reach the register: `t[15:0]` for a 16-bit pop, `t[31:0]` otherwise, so that
bits 63:32 of a 64-bit pop are dropped (40_popf.md R65 step 3, R78). -/
def imageUsed (size : Width) (t : Quad) : Quad :=
  match size with
  | .w16 => (t.setWidth 16).setWidth 64
  | .w32 => (t.setWidth 32).setWidth 64
  | .w64 => (t.setWidth 32).setWidth 64

/-- The bits of the mask from the image, every other bit from the old value (40_popf.md R65). -/
def mergeUnder (mask old image : Quad) : Quad := (old &&& ~~~mask) ||| (image &&& mask)

/-- RF is cleared by every execution that completes (40_popf.md R72, 10_state.md R13). -/
def clearRf (r : Quad) : Quad := r &&& ~~~mRf

/-- The new RFLAGS under a write mask (40_popf.md R65 step 3). -/
def loadFlags (mask : Quad) (size : Width) (old t : Quad) : Quad :=
  clearRf (mergeUnder mask old (imageUsed size t))

/-- The new RFLAGS of the VME path: `BASE` from the stack, VIF from the stack value's bit 9, RF cleared, IF and IOPL
kept (40_popf.md R71). -/
def vmeFlags (old t : Quad) : Quad :=
  clearRf ((mergeUnder mBase old (imageUsed .w16 t) &&& ~~~mVif) ||| (if t.getLsbD 9 then mVif else 0#64))

end Sys2Proof.Machine
end

