-- ==== Sys2Proof/Machine/Ops.lean ====
section
/-! DEFINITION. The named operations over memory and registers, what a launch state must satisfy, and raising an
exception. -/

namespace Sys2Proof.Machine

/-- What an address that is not listed reads as. The spec gives memory no contents (10_state.md R27): zero, DESIGN
CHOICE, unsafe, log 3. -/
def unlistedByte : Byte := 0#8

/-- The canonical form of memory: addresses strictly rising and within 64 bits, no entry equal to what an unlisted
address reads as. -/
abbrev Memory.wf (m : Memory) : Prop :=
  m.Pairwise (fun c d => c.1 < d.1) ∧ ∀ c ∈ m, c.1 < 2 ^ 64 ∧ c.2 ≠ unlistedByte

/-- Reading one byte. -/
def Memory.read : Memory → Nat → Byte
  | [], _ => unlistedByte
  | c :: m, a => if c.1 = a then c.2 else Memory.read m a

/-- Placing one byte, keeping the canonical form. No instruction of this spec calls it (20_memory.md R38): it stands
for what places a program and its data from outside (log 28). -/
def Memory.write : Memory → Nat → Byte → Memory
  | [], a, b => if b = unlistedByte then [] else [(a, b)]
  | c :: m, a, b =>
    if a < c.1 then (if b = unlistedByte then c :: m else (a, b) :: c :: m)
    else if a = c.1 then (if b = unlistedByte then m else (a, b) :: m)
    else c :: Memory.write m a b

/-- Placing bytes at rising addresses, modulo 2^64. -/
def Memory.store (m : Memory) (a : Quad) : List Byte → Memory
  | [] => m
  | b :: bs => Memory.store (m.write a.toNat b) (a + 1#64) bs

/-- The byte at an address of the one flat address space (20_memory.md R37, log 4). -/
def State.byteAt (s : State) (a : Quad) : Byte := s.mem.read a.toNat

/-- RFLAGS.VM, bit 17 (10_state.md R14). -/
def State.vm (s : State) : Bool := s.rflags.getLsbD 17

/-- RFLAGS.AC, bit 18. -/
def State.ac (s : State) : Bool := s.rflags.getLsbD 18

/-- RFLAGS.VIP, bit 20 (10_state.md R15). -/
def State.vip (s : State) : Bool := s.rflags.getLsbD 20

/-- The IOPL in force: the value before the instruction (10_state.md R16). -/
def State.iopl (s : State) : BitVec 2 := ioplOf s.rflags

/-- The privilege level used: 0 whenever CR0.PE = 0, whatever the CPL field holds (10_state.md R17). -/
def State.level (s : State) : BitVec 2 := if s.cr0PE then s.cpl else 0#2

/-- Virtual-8086 mode with IOPL < 3: the guard or the VME path (40_popf.md R65 step 2). -/
def State.v86Low (s : State) : Bool := s.cr0PE && s.vm && s.iopl != 3#2

/-- The width of the instruction pointer: IP, EIP or RIP by mode (10_state.md R23; PRESUMED, log 13). -/
def ipWidth : Mode → Width
  | .real => .w16
  | .v86 => .w16
  | .prot => .w32
  | .compat => .w32
  | .long64 => .w64

/-- Which operand sizes a mode can encode (30_encoding.md R54). -/
def encodable (m : Mode) (size : Width) : Bool :=
  match size with
  | .w16 => true
  | .w32 => m != .long64
  | .w64 => m == .long64

/-- The mode agrees with CR0.PE and EFLAGS.VM (70_reset_and_hazards.md R117 premise 1). -/
def State.modeConsistent (s : State) : Bool :=
  match s.mode with
  | .real => !s.cr0PE
  | .v86 => s.cr0PE && s.vm
  | .prot => s.cr0PE && !s.vm
  | .compat => s.cr0PE && !s.vm
  | .long64 => s.cr0PE && !s.vm

/-- The launch states and forms that the spec has the machine refuse, each by name (30_encoding.md R54; 10_state.md
R17, R18, R19, R23; 70_reset_and_hazards.md R117; log 20). `len` is the instruction's length. -/
def launchRefusal (size : Width) (len : Nat) (s : State) : Option Refusal :=
  if !encodable s.mode size then some .notEncodable
  else if !s.cr0PE && s.vm then some .vmWithoutPE
  else if !s.modeConsistent then some .modeInconsistent
  else if s.mode == .v86 && s.cpl != 3#2 then some .v86NotAtLevel3
  else if (s.mode == .long64) != (s.stackAddrSize == .w64) then some .stackSizeInconsistent
  else if s.cr4VME && !s.hasVME then some .vmeAbsent
  else if 2 ^ (ipWidth s.mode).bits ≤ s.ip.toNat + len then some .ipWraps
  else none

/-- Taking an exception, shared by every meaning: the step ends in the fault with its error code, and no state is
written (60_exceptions.md R99). The spec describes no delivery (R100) and no return from a trap (R101). -/
def raise (f : Fault) : Host.Outcome State Fault Refusal := .fault f

/-- The error code an exception carries (60_exceptions.md R90). -/
def Fault.errorCode : Fault → Option ErrorCode
  | .ud => none
  | .ss code => code
  | .gp code => some code
  | .pf code => some code
  | .ac code => some code

/-- The vector number of an exception (60_exceptions.md R90; PRESUMED, the spec's own general knowledge G18, log 31). -/
def Fault.vector : Fault → Nat
  | .ud => 6
  | .ss _ => 12
  | .gp _ => 13
  | .pf _ => 14
  | .ac _ => 17

/-- Everything a completed execution writes, together (40_popf.md R65 steps 4 and 5, 10_state.md R29). -/
def State.commit (s : State) (flags sp ip : Quad) : State := { s with rflags := flags, rsp := sp, ip := ip }

end Sys2Proof.Machine
end

