-- ==== Sys2Proof/Machine/Operands.lean ====
section
/-! DEFINITION. The one operand, implicit: the top of the stack (30_encoding.md R52; 20_memory.md R30 to R37). -/

namespace Sys2Proof.Machine

/-- The bits of the stack-pointer register that SP shows (10_state.md R21). -/
def spMask : Width → Quad
  | .w16 => 0xFFFF#64
  | .w32 => 0xFFFFFFFF#64
  | .w64 => 0xFFFFFFFFFFFFFFFF#64

/-- The offset of byte `k` of the read: SP + k modulo 2^StackAddrSize, zero-extended (20_memory.md R30). -/
def State.stackOffset (s : State) (k : Nat) : Quad :=
  (s.rsp + BitVec.ofNat 64 k) &&& spMask s.stackAddrSize

/-- The address of byte `k` of the read: the stack base plus its offset (20_memory.md R37, log 4). -/
def State.stackAddress (s : State) (k : Nat) : Quad := s.stackBase + s.stackOffset k

/-- Byte `k` of the read, from the memory of the launch (20_memory.md R30, R40). -/
def State.stackByte (s : State) (k : Nat) : Byte := s.byteAt (s.stackAddress k)

/-- Bytes assembled little-endian: the first is the least significant (20_memory.md R32; PRESUMED, log 10). -/
def littleEndian : List Byte → Quad
  | [] => 0#64
  | b :: bs => b.setWidth 64 ||| (littleEndian bs <<< 8)

/-- The value of an admitted read of `size` bits, zero-extended to 64 (20_memory.md R30). -/
def State.stackValue (s : State) (size : Width) : Quad :=
  littleEndian ((List.range size.bytes).map s.stackByte)

/-- `AlignCheckEnabled`: what the launch fixes, else CR0.AM = 1, old EFLAGS.AC = 1 and CPL = 3 (20_memory.md R35; the
default is PRESUMED, log 7). -/
def State.alignCheckEnabled (s : State) : Bool :=
  match s.alignCheck with
  | some b => b
  | none => s.cr0AM && s.ac && s.level == 3#2

/-- Whether #AC can be raised: never in real-address mode, at CPL 3 in the protected group of modes, in virtual-8086
mode without that clause (20_memory.md R35, 60_exceptions.md R94). -/
def State.alignCheckApplies (s : State) : Bool :=
  match s.mode with
  | .real => false
  | .v86 => s.alignCheckEnabled
  | .prot => s.level == 3#2 && s.alignCheckEnabled
  | .compat => s.level == 3#2 && s.alignCheckEnabled
  | .long64 => s.level == 3#2 && s.alignCheckEnabled

/-- An unaligned reference: the address is no multiple of the size (20_memory.md R34; PRESUMED, log 8). -/
def State.unaligned (s : State) (size : Width) : Bool := (s.stackAddress 0).toNat % size.bytes != 0

/-- #SS, without a code in real-address mode and with code 0 elsewhere (60_exceptions.md R92). -/
def ssFault (m : Mode) : Fault := if m = .real then .ss none else .ss (some 0)

/-- The access a pop of a size asks `StackAccess` for (20_memory.md R30). -/
def State.stackQuery (s : State) (size : Width) : Access := ⟨s.stackOffset 0, size⟩

/-- The PFErrorCode that the launch gives an access, if `StackAccess` answers #PF for it (60_exceptions.md R93). -/
def pageFaultCode (q : Access) : List (Access × ErrorCode) → Option ErrorCode
  | [] => none
  | p :: ps => if p.1 = q then some p.2 else pageFaultCode q ps

/-- The exception of the stack read, if any: #SS, then #AC, then #PF (60_exceptions.md R98 item 3, log 19); #PF is
not in the real-address list (R97). -/
def State.stackFault (s : State) (size : Width) : Option Fault :=
  if s.stackQuery size ∈ s.ssFaults then some (ssFault s.mode)
  else if s.alignCheckApplies && s.unaligned size then some (.ac 0)
  else if s.mode = .real then none
  else (pageFaultCode (s.stackQuery size) s.pageFaults).map .pf

/-- `StackRead`: the admitted read at the top of the stack, or its exception (20_memory.md R30, R36). -/
def State.stackRead (s : State) (size : Width) : Except Fault Quad :=
  match s.stackFault size with
  | some f => .error f
  | none => .ok (s.stackValue size)

/-- The stack-pointer register after a completed pop: SP + n modulo 2^StackAddrSize, the bits above kept (20_memory.md
R31, 10_state.md R21; PRESUMED, log 9, log 11). -/
def State.popSp (s : State) (size : Width) : Quad :=
  (s.rsp &&& ~~~ spMask s.stackAddrSize) |||
    ((s.rsp + BitVec.ofNat 64 size.bytes) &&& spMask s.stackAddrSize)

end Sys2Proof.Machine
end

