-- ==== Sys2Proof/Machine/Popf.lean ====
section
/-! DEFINITION. POPF, POPFD and POPFQ (40_popf.md): one execution in the order of rule R65, shared by the three, and
the meaning of each. -/

namespace Sys2Proof.Machine

/-- The virtual-8086 guard: with IOPL < 3, #GP(0) for the 32-bit size or without VME, before the stack is read
(40_popf.md R70). -/
def guardFault (size : Width) (s : State) : Option Fault :=
  if s.v86Low && (size == .w32 || !s.cr4VME) then some (.gp 0) else none

/-- The VME path's test of the stack value: IF on the stack while VIP is set, or TF on the stack (40_popf.md R71). -/
def valueFault (s : State) (t : Quad) : Option Fault :=
  if s.v86Low && ((s.vip && t.getLsbD 9) || t.getLsbD 8) then some (.gp 0) else none

/-- The new RFLAGS: the VME path's in virtual-8086 mode with IOPL < 3 (40_popf.md R71), else under the write mask (R66). -/
def newFlags (size : Width) (s : State) (t : Quad) : Quad :=
  if s.v86Low then vmeFlags s.rflags t
  else loadFlags (writeMask s.cr0PE s.vm s.level s.iopl size) size s.rflags t

/-- The exception an execution raises, or the value it pops: LOCK, the guard, the stack read, the value test, in the
order of 60_exceptions.md R98 (40_popf.md R65). -/
def popOrRaise (size : Width) (pre : List Pfx) (s : State) : Except Fault Quad :=
  if Pfx.lock ∈ pre then .error .ud
  else match guardFault size s with
    | some f => .error f
    | none => match s.stackRead size with
      | .error f => .error f
      | .ok t => match valueFault s t with
        | some f => .error f
        | none => .ok t

/-- One execution (40_popf.md R65). All writes happen together, and none where it raises. -/
def popFlags (size : Width) (pre : List Pfx) (s : State) : Host.Outcome State Fault Refusal :=
  match launchRefusal size (pre.length + 1) s with
  | some r => .refused r
  | none => match popOrRaise size pre s with
    | .error f => raise f
    | .ok t => .next (s.commit (newFlags size s t) (s.popSp size) (s.ip + BitVec.ofNat 64 (pre.length + 1)))

/-- POPF, "Pop top of stack into lower 16 bits of EFLAGS" (40_popf.md R67). -/
def execPopf (pre : List Pfx) (s : State) : Host.Outcome State Fault Refusal := popFlags .w16 pre s

/-- POPFD, "Pop top of stack into EFLAGS" (40_popf.md R68). -/
def execPopfd (pre : List Pfx) (s : State) : Host.Outcome State Fault Refusal := popFlags .w32 pre s

/-- POPFQ: pops 64 bits; RFLAGS[63:32] is not affected (40_popf.md R69, 90_conflicts.md C7). -/
def execPopfq (pre : List Pfx) (s : State) : Host.Outcome State Fault Refusal := popFlags .w64 pre s

end Sys2Proof.Machine
end

