-- ==== Sys2Proof/Machine/Dispatch.lean ====
section
/-! DEFINITION. One arm per instruction. -/

namespace Sys2Proof.Machine

def exec (i : Instr) (s : State) : Host.Outcome State Fault Refusal :=
  match i with
  | .popf pre => Sys2Proof.Machine.execPopf pre s
  | .popfd pre => Sys2Proof.Machine.execPopfd pre s
  | .popfq pre => Sys2Proof.Machine.execPopfq pre s

end Sys2Proof.Machine
end

