-- ==== Sys2Proof/Machine/Fetch.lean ====
section
/-! DEFINITION. Fetching and decoding the instruction at ip, and placing one there. Code and data lie in one address
space (10_state.md R24); a fetch is never faulted, since the spec gives a fetch no exception (log 4). -/

namespace Sys2Proof.Machine

/-- `n` bytes of memory at rising addresses. -/
def Memory.bytesFrom (m : Memory) : Nat → Quad → List Byte
  | 0, _ => []
  | n + 1, a => m.read a.toNat :: Memory.bytesFrom m n (a + 1#64)

/-- The address ip points to: the code base plus ip (10_state.md R23, R27). -/
def State.fetchAddress (s : State) : Quad := s.codeBase + s.ip

/-- How many bytes lie between ip and the top of the instruction pointer's width (10_state.md R23). -/
def State.fetchWindow (s : State) : Nat := 2 ^ (ipWidth s.mode).bits - s.ip.toNat

/-- The bytes at ip, as far as the instruction pointer reaches. A program's end is no state (00_scope.md section 7), so an
instruction may take bytes beyond the program's last one: DESIGN CHOICE, unsafe, log 35. -/
def State.fetchBytes (s : State) : List Byte := s.mem.bytesFrom s.fetchWindow s.fetchAddress

/-- What decoding depends on besides the bytes (30_encoding.md R60). -/
def State.codeContext (s : State) : CodeContext := ⟨s.mode, s.defaultSize⟩

/-- The instruction at ip, or the refusal of the bytes there (30_encoding.md R58, R59); an instruction that does not
end before the top of the instruction pointer's width would wrap it (10_state.md R23). -/
def State.fetch (s : State) : Except Refusal Instr :=
  match decode s.codeContext s.fetchBytes with
  | .ok (i, _) => .ok i
  | .error .truncated => .error .ipWraps
  | .error e => .error (.undecodable e)

/-- The memory with a table word placed where the next instruction is fetched (log 28). -/
def State.placeWord (s : State) (nbits w : Nat) : Memory :=
  s.mem.store s.fetchAddress (wordBytes (tableBytes nbits) (w % 2 ^ nbits))

end Sys2Proof.Machine
end

