-- ==== Sys2Proof/Machine/Step.lean ====
section
/-! DEFINITION. One step: the instruction at ip is fetched, decoded and executed (92_eei_decisions.md D1). -/

namespace Sys2Proof.Machine

/-- One step of the machine. -/
def step (s : State) : Host.Outcome State Fault Refusal :=
  match s.fetch with
  | .ok i => exec i s
  | .error r => .refused r

/-- `s` with a table word placed where `step` fetches its next instruction (log 28). -/
def State.withFetchWord (s : State) (nbits w : Nat) : State := { s with mem := s.placeWord nbits w }

end Sys2Proof.Machine
end

