-- ==== Sys2Proof/Machine/Operation.lean ====
section
/-! DEFINITION. The page's Operation (95_test_vectors.md section 1.3), branch by branch, each assignment limited by its
comment (00_scope.md R8). The step does not read it: claims compare the step with it (40_popf.md R82). -/

namespace Sys2Proof.Machine

/-- The 17 flags and fields, the non-reserved bits (10_state.md R11, R12). -/
def allFlags : List Flag :=
  [.cf, .pf, .af, .zf, .sf, .tf, .fi, .df, .of, .iopl, .nt, .rf, .vm, .ac, .vif, .vip, .id]

/-- The bits of some flags as a mask. -/
def flagMask (fs : List Flag) : Quad :=
  fs.foldr (fun f m => f.bits.foldr (fun k m => m ||| (1#64 <<< k)) m) 0#64

/-- "All non-reserved bits except … can be modified", of the bits an assignment writes. -/
def modifiable (assigned : Quad) (except : List Flag) : Quad :=
  flagMask allFlags &&& assigned &&& ~~~ flagMask except

/-- What a branch of the Operation does: #GP(0) before it pops, #GP(0) for the value it popped, a pop that may modify some
bits and whose comment says or does not say that RF is cleared, or the VME branch's two assignments. -/
inductive BranchEffect where
  | gp0
  | gp0AfterPop
  | popped (may : Quad) (saysRfCleared : Bool)
  | vmeBranch (may : Quad)
  deriving DecidableEq, Repr

/-- `EFLAGS ← Pop()` writes 32 bits, `RFLAGS = Pop()` 64, `EFLAGS[15:0] ← Pop()` 16. -/
def assignedBits : Width → Quad
  | .w16 => 0xFFFF#64
  | .w32 => 0xFFFFFFFF#64
  | .w64 => 0xFFFFFFFFFFFFFFFF#64

/-- The branch "CPL = 0 OR CR0.PE = 0". -/
def operationPrivileged (size : Width) : BranchEffect :=
  match size with
  | .w32 => .popped (modifiable (assignedBits .w32) [.rf, .vip, .vif, .vm]) true
  | .w64 => .popped (modifiable (assignedBits .w64) [.rf, .vip, .vif, .vm]) true
  | .w16 => .popped (modifiable (assignedBits .w16) []) false

/-- The branch "CPL > 0". The 16-bit assignment does not compare CPL with IOPL (90_conflicts.md C4). -/
def operationUnprivileged (size : Width) (cpl iopl : BitVec 2) : BranchEffect :=
  match size with
  | .w32 =>
    if iopl < cpl then .popped (modifiable (assignedBits .w32) [.fi, .iopl, .vip, .vif, .vm, .rf]) true
    else .popped (modifiable (assignedBits .w32) [.iopl, .vip, .vif, .vm, .rf]) true
  | .w64 =>
    if iopl < cpl then .popped (modifiable (assignedBits .w64) [.fi, .iopl, .vip, .vif, .vm, .rf]) true
    else .popped (modifiable (assignedBits .w64) [.iopl, .vip, .vif, .vm, .rf]) true
  | .w16 => .popped (modifiable (assignedBits .w16) [.iopl]) false

/-- The branch "In virtual-8086 mode", for the flag VIP and the value `t` that `tempFLAGS` takes. The VME branch is
limited by its comment (90_conflicts.md C9). -/
def operationVirtual (size : Width) (iopl : BitVec 2) (vme vip : Bool) (t : Quad) : BranchEffect :=
  if iopl = 3#2 then
    (if size = .w32 then .popped (modifiable (assignedBits .w32) [.iopl, .vip, .vif, .vm, .rf]) true
      else .popped (modifiable (assignedBits .w16) [.iopl]) false)
  else if size = .w32 ∨ vme = false then .gp0
  else if (vip = true ∧ t.getLsbD 9 = true) ∨ t.getLsbD 8 = true then .gp0AfterPop
  else .vmeBranch (modifiable (assignedBits .w16) [.iopl, .fi])

/-- The Operation: its first test is EFLAGS.VM, its second CPL = 0 or CR0.PE = 0. -/
def operation (vm pe vme vip : Bool) (cpl iopl : BitVec 2) (size : Width) (t : Quad) : BranchEffect :=
  if vm then operationVirtual size iopl vme vip t
  else if cpl = 0#2 ∨ pe = false then operationPrivileged size
  else operationUnprivileged size cpl iopl

end Sys2Proof.Machine
end

