-- ==== Sys2Proof/Machine/Run.lean ====
section
/-! DEFINITION. A run and its end (70_reset_and_hazards.md R122; log 32). A run of the processor does not end there. -/

namespace Sys2Proof.Machine

/-- How a run stands after so many steps: not yet ended, ended normally, in a fault with the state it was raised in
(60_exceptions.md R99, R100), or in a refusal. -/
inductive RunEnd where
  | running (s : State)
  | done (s : State)
  | faulted (f : Fault) (s : State)
  | refused (r : Refusal) (s : State)
  deriving DecidableEq, Repr

/-- At most `n` steps of the program whose last byte lies just before ip = `past`. An instruction that begins before
`past` and ends beyond it runs, and ip passes `past` (DESIGN CHOICE, log 35). -/
def run (past : Quad) : Nat → State → RunEnd
  | 0, s => if s.ip = past then .done s else .running s
  | n + 1, s =>
    if s.ip = past then .done s
    else match step s with
      | .next t => run past n t
      | .fault f => .faulted f s
      | .refused r => .refused r s

end Sys2Proof.Machine
end

