-- ==== Sys2Proof/Machine/Table415.lean ====
section
/-! DEFINITION. Table 4-15 of the page as data (95_test_vectors.md section 1.2, 40_popf.md R79, 00_scope.md R9), cell by
cell. The step does not read it: it is the page's own view of the flags, which claims compare the step with. -/

namespace Sys2Proof.Machine

/-- A cell of the table by its key (00_scope.md R9): S, SV, N, X and 0. -/
inductive Cell where
  | fromStack
  | fromStackIf
  | noChange
  | noUpdate
  | cleared
  deriving DecidableEq, Repr

/-- The Mode column (10_state.md R19). -/
inductive RowGroup where
  | realAddress
  | protectedGroup
  | virtual8086
  | vme
  deriving DecidableEq, Repr

/-- The IOPL condition column. -/
inductive IoplCondition where
  | any
  | belowCpl
  | atLeastCpl
  | zeroToTwo
  | three
  deriving DecidableEq, Repr

/-- One data row. `cells` stands in the order of `columns`; `mask` is the row's mask in 40_popf.md R79; `notes` are the
numbers of the last column. -/
structure Row where
  group : RowGroup
  sizes : List Width
  cpls : List (BitVec 2)
  iopl : IoplCondition
  cells : List Cell
  mask : Quad
  notes : List Nat
  deriving DecidableEq, Repr

/-- The 17 flag columns in the table's order, left to right. -/
def columns : List Flag :=
  [.id, .vip, .vif, .ac, .vm, .rf, .nt, .iopl, .of, .df, .fi, .tf, .sf, .zf, .af, .pf, .cf]

/-- A row's seventeen cells, from the key letters of the columns that differ between rows: ID, VIF, AC, RF, IOPL and IF.
The others are N for VIP and VM and S for the nine arithmetic and control flags in every updating row. -/
def updatingCells (id vif ac iopl fi : Cell) : List Cell :=
  [id, .noChange, vif, ac, .noChange, .cleared, .fromStack, iopl, .fromStack, .fromStack, fi,
    .fromStack, .fromStack, .fromStack, .fromStack, .fromStack, .fromStack]

/-- A row whose every cell is X. -/
def silentCells : List Cell := List.replicate 17 .noUpdate

/-- Rows 1 and 2: real-address mode. -/
def rowsReal : List Row :=
  [⟨.realAddress, [.w16], [0#2], .any,
      updatingCells .noChange .noChange .noChange .fromStack .fromStack, 0x7FD5#64, []⟩,
    ⟨.realAddress, [.w32], [0#2], .any,
      updatingCells .fromStack .noChange .fromStack .fromStack .fromStack, 0x247FD5#64, []⟩]

/-- Rows 3 to 8: protected, compatibility and 64-bit modes. -/
def rowsProtected : List Row :=
  [⟨.protectedGroup, [.w16], [0#2], .any,
      updatingCells .noChange .noChange .noChange .fromStack .fromStack, 0x7FD5#64, []⟩,
    ⟨.protectedGroup, [.w16], [1#2, 2#2, 3#2], .belowCpl,
      updatingCells .noChange .noChange .noChange .noChange .noChange, 0x4DD5#64, []⟩,
    ⟨.protectedGroup, [.w16], [1#2, 2#2, 3#2], .atLeastCpl,
      updatingCells .noChange .noChange .noChange .noChange .fromStack, 0x4FD5#64, []⟩,
    ⟨.protectedGroup, [.w32, .w64], [0#2], .any,
      updatingCells .fromStack .noChange .fromStack .fromStack .fromStack, 0x247FD5#64, []⟩,
    ⟨.protectedGroup, [.w32, .w64], [1#2, 2#2, 3#2], .belowCpl,
      updatingCells .fromStack .noChange .fromStack .noChange .noChange, 0x244DD5#64, []⟩,
    ⟨.protectedGroup, [.w32, .w64], [1#2, 2#2, 3#2], .atLeastCpl,
      updatingCells .fromStack .noChange .fromStack .noChange .fromStack, 0x244FD5#64, []⟩]

/-- Rows 9 to 12: virtual-8086 mode without VME. -/
def rowsVirtual : List Row :=
  [⟨.virtual8086, [.w16], [3#2], .zeroToTwo, silentCells, 0#64, [1]⟩,
    ⟨.virtual8086, [.w16], [3#2], .three,
      updatingCells .noChange .noChange .noChange .noChange .fromStack, 0x4FD5#64, []⟩,
    ⟨.virtual8086, [.w32], [3#2], .zeroToTwo, silentCells, 0#64, [1]⟩,
    ⟨.virtual8086, [.w32], [3#2], .three,
      updatingCells .fromStack .noChange .fromStack .noChange .fromStack, 0x244FD5#64, []⟩]

/-- Rows 13 to 16: virtual-8086 mode with VME. Row 13's cells are those before the slash; X after it is notes 2 and 3. -/
def rowsVme : List Row :=
  [⟨.vme, [.w16], [3#2], .zeroToTwo,
      updatingCells .noChange .fromStackIf .noChange .noChange .noChange, 0x4DD5#64, [2, 3]⟩,
    ⟨.vme, [.w16], [3#2], .three,
      updatingCells .noChange .noChange .noChange .noChange .fromStack, 0x4FD5#64, []⟩,
    ⟨.vme, [.w32], [3#2], .zeroToTwo, silentCells, 0#64, [1]⟩,
    ⟨.vme, [.w32], [3#2], .three,
      updatingCells .fromStack .noChange .fromStack .noChange .fromStack, 0x244FD5#64, []⟩]

/-- The sixteen data rows. -/
def table415 : List Row := rowsReal ++ rowsProtected ++ rowsVirtual ++ rowsVme

/-- The state is in the row's mode group. -/
def RowGroup.holds (g : RowGroup) (s : State) : Bool :=
  match g with
  | .realAddress => !s.cr0PE
  | .protectedGroup => s.cr0PE && !s.vm
  | .virtual8086 => s.cr0PE && s.vm && !s.cr4VME
  | .vme => s.cr0PE && s.vm && s.cr4VME

/-- The IOPL condition on the old IOPL, against the level used. -/
def IoplCondition.holds (c : IoplCondition) (s : State) : Bool :=
  match c with
  | .any => true
  | .belowCpl => s.iopl < s.level
  | .atLeastCpl => s.level ≤ s.iopl
  | .zeroToTwo => s.iopl < 3#2
  | .three => s.iopl == 3#2

/-- The row is the one for this state and operand size. -/
def Row.applies (r : Row) (size : Width) (s : State) : Bool :=
  r.group.holds s && r.sizes.contains size && r.cpls.contains s.level && r.iopl.holds s

/-- Bit `k` after an execution, by the cell of its flag: `old` is RFLAGS before, `t` the stack value. -/
def Cell.bitAfter (c : Cell) (old t : Quad) (k : Nat) : Bool :=
  match c with
  | .fromStack => t.getLsbD k
  | .fromStackIf => t.getLsbD 9
  | .noChange => old.getLsbD k
  | .noUpdate => old.getLsbD k
  | .cleared => false

/-- The row's flags with their cells. -/
def Row.flagCells (r : Row) : List (Flag × Cell) := columns.zip r.cells

/-- The mask that a row's S cells give. -/
def Row.maskOfCells (r : Row) : Quad :=
  r.flagCells.foldr (fun fc m => if fc.2 = .fromStack then fc.1.bits.foldr (fun k m => m ||| (1#64 <<< k)) m else m) 0#64

end Sys2Proof.Machine
end

