-- ==== Sys2Proof/WellFormed.lean ====
section
/-! DEFINITION. Which instruction terms some byte string stands for, in a given context (30_encoding.md R54, R55, R58). -/

namespace Sys2Proof

/-- The prefixes form an admitted byte string: LOCK at most once, `66` any number of times (30_encoding.md R58). -/
def prefixesAdmitted (i : Instr) : Bool := i.prefixes.count .lock ≤ 1

/-- The mnemonic is the one that the context and the prefixes select (30_encoding.md R54, R55). -/
def sizeSelected (c : CodeContext) (i : Instr) : Bool :=
  i.size = operandSize c (i.prefixes.contains .opSize)

/-- A well-formed instruction of a context. -/
def WellFormed (c : CodeContext) (i : Instr) : Bool := prefixesAdmitted i && sizeSelected c i

end Sys2Proof
end

