-- ==== Sys2Proof/Safety.lean ====
section
/-! DEFINITION. The terms in which claims speak of the machine: launch premises, admitted accesses, the machine's
invariant (70_reset_and_hazards.md R117). They are written from the spec, not from the checks the step makes. -/

namespace Sys2Proof.Machine

/-- Premises 1 to 3 of 70_reset_and_hazards.md R117, with decision D3's "64 iff Mode = Long64" and D16. -/
abbrev LaunchPremises (s : State) : Prop :=
  (s.mode = .real ↔ s.cr0PE = false) ∧
  (s.mode = .v86 ↔ s.cr0PE = true ∧ s.vm = true) ∧
  (s.mode = .prot ∨ s.mode = .compat ∨ s.mode = .long64 ↔ s.cr0PE = true ∧ s.vm = false) ∧
  ¬(s.cr0PE = false ∧ s.vm = true) ∧
  (s.mode = .v86 → s.cpl = 3#2) ∧
  (s.mode = .long64 ↔ s.stackAddrSize = .w64) ∧
  (s.cr4VME = true → s.hasVME = true)

/-- The mode can encode the operand size: no 32 in 64-bit mode, no 64 outside it (30_encoding.md R54). -/
abbrev SizeEncodable (m : Mode) (size : Width) : Prop :=
  (size = .w32 → m ≠ .long64) ∧ (size = .w64 → m = .long64)

/-- ip + L does not wrap the instruction pointer's width (10_state.md R23). -/
abbrev IpFits (i : Instr) (s : State) : Prop := s.ip.toNat + i.length < 2 ^ (ipWidth s.mode).bits

/-- The states and forms in which the spec has the machine execute the instruction. -/
abbrev Ready (i : Instr) (s : State) : Prop :=
  LaunchPremises s ∧ SizeEncodable s.mode i.size ∧ IpFits i s

/-- `StackAccess` admits the read (70_reset_and_hazards.md R117 premise 6): no #SS answer, no alignment check that an
unaligned address would fail, no #PF answer outside real-address mode. -/
abbrev Admits (size : Width) (s : State) : Prop :=
  s.stackQuery size ∉ s.ssFaults ∧
  ¬(s.alignCheckApplies = true ∧ s.unaligned size = true) ∧
  (s.mode = .real ∨ ∀ p ∈ s.pageFaults, p.1 ≠ s.stackQuery size)

/-- Virtual-8086 mode with IOPL < 3 (40_popf.md R70, R71). -/
abbrev VirtualLow (s : State) : Prop := s.mode = .v86 ∧ s.iopl < 3#2

/-- The masks of 40_popf.md R66's table for every execution outside virtual-8086 mode with IOPL < 3, as numerals. -/
def tableMask (size : Width) (s : State) : Quad :=
  let low : Quad :=
    if s.mode = .real ∨ (s.vm = false ∧ s.cpl = 0#2) then 0x7FD5#64
    else if s.cpl ≤ s.iopl then 0x4FD5#64
    else 0x4DD5#64
  if size = .w16 then low else low ||| 0x240000#64

/-- The bits of `mask` from `t`, every other bit from `old`, and RF (bit 16) cleared. -/
def flagsUnder (mask old t : Quad) : Quad := ((old &&& ~~~mask) ||| (t &&& mask)) &&& ~~~0x10000#64

/-- The flags of the VME path: CF, PF, AF, ZF, SF, TF, DF, OF, NT from `t`, VIF from bit 9 of `t`, RF cleared. -/
def flagsUnderVme (old t : Quad) : Quad :=
  ((old &&& ~~~0x84DD5#64) ||| (t &&& 0x4DD5#64) ||| (if t.getLsbD 9 then 0x80000#64 else 0#64)) &&& ~~~0x10000#64

/-- The reserved bit positions of RFLAGS (10_state.md R12). -/
abbrev ReservedBit (k : Nat) : Prop := k = 1 ∨ k = 3 ∨ k = 5 ∨ k = 15 ∨ 22 ≤ k

/-- Premise 5 of 70_reset_and_hazards.md R117: reserved bit 1 is 1 and every other reserved bit 0. -/
abbrev ReservedStandard (r : Quad) : Prop := r &&& 0xFFFFFFFFFFC0802A#64 = 0x2#64

/-- The machine's invariant: the launch premises, memory in canonical form, the reserved bits as premise 5 has them,
and an instruction pointer within its width. -/
def Inv (s : State) : Prop :=
  LaunchPremises s ∧ s.mem.wf ∧ ReservedStandard s.rflags ∧ s.ip.toNat < 2 ^ (ipWidth s.mode).bits

/-- An outcome with its next state, if any, changed by `f`: to compare two runs that differ in one component. -/
def mapNext (f : State → State) : Host.Outcome State Fault Refusal → Host.Outcome State Fault Refusal
  | .next s => .next (f s)
  | .fault e => .fault e
  | .refused r => .refused r

/-- What no instruction in scope writes (10_state.md R28): memory, the mode, CPL, the control bits, the segments and
the parameters are as before, and so is VM. -/
def SameContext (s t : State) : Prop := t.vm = s.vm ∧ t = { s with rflags := t.rflags, rsp := t.rsp, ip := t.ip }

/-- The instruction's bytes stand in memory at ip. -/
def BytesAtIp (s : State) (bs : List Byte) : Prop :=
  ∀ (k : Nat) (h : k < bs.length), s.byteAt (s.codeBase + s.ip + BitVec.ofNat 64 k) = bs[k]

/-- The execution completes: no fault and no refusal. -/
def Completes (i : Instr) (s : State) : Prop := ∃ t, exec i s = .next t

end Sys2Proof.Machine
end

