-- ==== Sys2Proof/Certificates/Slice0/Obligations.lean ====
section
/-! DEFINITION. The statements about the machine. Each names the rule of the spec it formalises; where a clause rests on
a choice of the spec or of the model, the log row (notes/assumptions) is named. -/

open Sys2Proof Sys2Proof.Machine

/-! ## Encoding -/

/-- The words of vectors DEC1 to DEC15 of 95_test_vectors.md, written out bit by bit from 30_encoding.md R50, decode to
the instructions they stand for, whatever the default size where the vector leaves it open; and so do two more strings:
`66 9D` in compatibility mode with default size 32 (a cell of R55's table that no vector shows), and DEC13's `F0 9D` in
64-bit mode with a byte after it. The operand sizes and prefix bytes are the spec's own choice (D2, log 14, log 15). -/
def Obligations.WrittenOutBytesDecode : Prop :=
  (∀ d : DefaultSize,
    decode ⟨.real, d⟩ [0b10011101#8] = .ok (.popf [], []) ∧
    decode ⟨.real, d⟩ [0b01100110#8, 0b10011101#8] = .ok (.popfd [.opSize], []) ∧
    decode ⟨.v86, d⟩ [0b10011101#8] = .ok (.popf [], []) ∧
    decode ⟨.v86, d⟩ [0b01100110#8, 0b10011101#8] = .ok (.popfd [.opSize], []) ∧
    decode ⟨.long64, d⟩ [0b10011101#8] = .ok (.popfq [], []) ∧
    decode ⟨.long64, d⟩ [0b01100110#8, 0b10011101#8] = .ok (.popf [.opSize], []) ∧
    decode ⟨.real, d⟩ [0b01100110#8, 0b01100110#8, 0b10011101#8] = .ok (.popfd [.opSize, .opSize], [])) ∧
  decode ⟨.prot, .d16⟩ [0b10011101#8] = .ok (.popf [], []) ∧
  decode ⟨.prot, .d16⟩ [0b01100110#8, 0b10011101#8] = .ok (.popfd [.opSize], []) ∧
  decode ⟨.prot, .d32⟩ [0b10011101#8] = .ok (.popfd [], []) ∧
  decode ⟨.prot, .d32⟩ [0b01100110#8, 0b10011101#8] = .ok (.popf [.opSize], []) ∧
  decode ⟨.compat, .d32⟩ [0b10011101#8] = .ok (.popfd [], []) ∧
  decode ⟨.compat, .d16⟩ [0b10011101#8] = .ok (.popf [], []) ∧
  decode ⟨.compat, .d32⟩ [0b01100110#8, 0b10011101#8] = .ok (.popf [.opSize], []) ∧
  decode ⟨.long64, .d16⟩ [0b11110000#8, 0b10011101#8, 0x90#8] = .ok (.popfq [.lock], [0x90#8]) ∧
  ∀ c : CodeContext,
    decode c [0b11110000#8, 0b10011101#8] = .ok (instrOf (operandSize c false) [.lock], []) ∧
    decode c [0b11110000#8, 0b01100110#8, 0b10011101#8] = .ok (instrOf (operandSize c true) [.lock, .opSize], []) ∧
    decode c [0b01100110#8, 0b11110000#8, 0b10011101#8] = .ok (instrOf (operandSize c true) [.opSize, .lock], [])

/-- Decoding an encoded well-formed instruction gives it back, with every prefix string, in every context, and leaves
the bytes after it (30_encoding.md sections 1 to 3). -/
def Obligations.DecodeOfEncodeIsTheInstruction : Prop :=
  ∀ (c : CodeContext) (i : Instr) (rest : List Byte),
    WellFormed c i = true → decode c (encode i ++ rest) = .ok (i, rest)

/-- Whatever the decoder accepts is the encoding of a well-formed instruction followed by the bytes it leaves
(30_encoding.md R58: no other byte string is admitted; log 15, log 16). -/
def Obligations.AcceptedBytesAreAnEncoding : Prop :=
  ∀ (c : CodeContext) (bs : List Byte) (i : Instr) (rest : List Byte),
    decode c bs = .ok (i, rest) → WellFormed c i = true ∧ bs = encode i ++ rest

/-- No byte string decodes to the 32-bit form in 64-bit mode or to the 64-bit form outside it, and the machine refuses
either if handed one (30_encoding.md R54, D2, log 20). -/
def Obligations.UnencodableFormsAreNeverDecodedAndRefused : Prop :=
  (∀ (c : CodeContext) (bs : List Byte) (i : Instr) (rest : List Byte), decode c bs = .ok (i, rest) →
    (c.mode = .long64 → i.size ≠ .w32) ∧ (c.mode ≠ .long64 → i.size ≠ .w64)) ∧
  (∀ (pre : List Pfx) (s : State), s.mode = .long64 → exec (.popfd pre) s = .refused .notEncodable) ∧
  (∀ (pre : List Pfx) (s : State), s.mode ≠ .long64 → exec (.popfq pre) s = .refused .notEncodable)

/-- A byte at ip, after any admitted prefix bytes, that is none of 9D, 66 and F0 makes the step a refusal, not a fault
(30_encoding.md R58, R59, log 15). -/
def Obligations.OtherBytesAreRefusedNotFaulted : Prop :=
  ∀ (s : State) (pre : List Pfx) (b : Byte), b ≠ 0x9D#8 → b ≠ 0x66#8 → b ≠ 0xF0#8 →
    BytesAtIp s (pre.map Pfx.byte ++ [b]) → ∃ r, step s = .refused r

/-! ## The step -/

/-- When the bytes at ip are those of a well-formed instruction, the step is the instruction's execution; where the
instruction does not end within the instruction pointer's width it is refused (D1, D7). That the bytes fetched are those at
code base plus ip, and that a fetch never faults, is the model's choice (log 4), and so is that width (log 13). -/
def Obligations.StepExecutesTheInstructionAtIp : Prop :=
  ∀ (s : State) (i : Instr), WellFormed s.codeContext i = true → BytesAtIp s (encode i) →
    (s.ip.toNat + i.length ≤ 2 ^ (ipWidth s.mode).bits → step s = exec i s) ∧
    (2 ^ (ipWidth s.mode).bits < s.ip.toNat + i.length → step s = .refused .ipWraps)

/-- The machine refuses to execute exactly in the states and forms the spec has it refuse: it runs in all others
(30_encoding.md R54; 10_state.md R17 to R19, R23; 70_reset_and_hazards.md R117; D3, D7, D16, D19, D21, D22, log 20). -/
def Obligations.RefusedExactlyWhenNotReady : Prop :=
  ∀ (i : Instr) (s : State), (∃ r, exec i s = .refused r) ↔ ¬ Ready i s

/-! ## What a completed execution does -/

/-- POPF outside virtual-8086 mode with IOPL < 3: it completes, takes the nine always-written flags from the two bytes at
the top of the stack, IF and IOPL by privilege, clears RF and changes nothing else but SP and ip (40_popf.md R67, R66;
the stack's place, the byte order, the pop and the advance are choices: D3, D4, D5, D7, log 4, log 9 to log 12). -/
def Obligations.PopfCompletes : Prop :=
  ∀ (pre : List Pfx) (s : State), Ready (.popf pre) s → Pfx.lock ∉ pre → Admits .w16 s → ¬ VirtualLow s →
    exec (.popf pre) s = .next { s with
      rflags := flagsUnder (tableMask .w16 s) s.rflags ((s.stackByte 1 ++ s.stackByte 0).setWidth 64)
      rsp := s.popSp .w16
      ip := s.ip + BitVec.ofNat 64 (pre.length + 1) }

/-- POPFD outside virtual-8086 mode with IOPL < 3: as POPF, from four bytes, and AC and ID too (40_popf.md R68, R66; log 4,
log 9 to log 12). -/
def Obligations.PopfdCompletes : Prop :=
  ∀ (pre : List Pfx) (s : State), Ready (.popfd pre) s → Pfx.lock ∉ pre → Admits .w32 s → ¬ VirtualLow s →
    exec (.popfd pre) s = .next { s with
      rflags := flagsUnder (tableMask .w32 s) s.rflags
        ((s.stackByte 3 ++ s.stackByte 2 ++ s.stackByte 1 ++ s.stackByte 0).setWidth 64)
      rsp := s.popSp .w32
      ip := s.ip + BitVec.ofNat 64 (pre.length + 1) }

/-- POPFQ: the flags as POPFD from the lower four of eight bytes; RFLAGS[63:32] keeps its value (40_popf.md R69,
90_conflicts.md C7; log 4, log 9 to log 12). -/
def Obligations.PopfqCompletes : Prop :=
  ∀ (pre : List Pfx) (s : State), Ready (.popfq pre) s → Pfx.lock ∉ pre → Admits .w64 s →
    exec (.popfq pre) s = .next { s with
      rflags := flagsUnder (tableMask .w64 s) s.rflags
        ((s.stackByte 3 ++ s.stackByte 2 ++ s.stackByte 1 ++ s.stackByte 0).setWidth 64)
      rsp := s.popSp .w64
      ip := s.ip + BitVec.ofNat 64 (pre.length + 1) }

/-- POPF in virtual-8086 mode with IOPL < 3 and VME, where the stack value passes the tests: VIF takes the popped IF, IF
and IOPL stay (40_popf.md R71; log 4, log 9 to log 12). -/
def Obligations.PopfCompletesOnTheVmePath : Prop :=
  ∀ (pre : List Pfx) (s : State), Ready (.popf pre) s → Pfx.lock ∉ pre → Admits .w16 s → VirtualLow s →
    s.cr4VME = true →
    ¬(s.vip = true ∧ (s.stackByte 1).getLsbD 1 = true) → (s.stackByte 1).getLsbD 0 = false →
    exec (.popf pre) s = .next { s with
      rflags := flagsUnderVme s.rflags ((s.stackByte 1 ++ s.stackByte 0).setWidth 64)
      rsp := s.popSp .w16
      ip := s.ip + BitVec.ofNat 64 (pre.length + 1) }

/-- The machine agrees with Table 4-15, cell by cell (40_popf.md R79): each row's S cells give the row's mask; exactly one
row is the one for a launch state and an encodable size; a row of X raises #GP(0); after an execution that completes,
every bit of every flag is as the row's cell says, and notes 2 and 3 did not hold; where one of them holds for a row that
names it and the read is admitted, #GP(0) is raised. -/
def Obligations.FlagsFollowTable415 : Prop :=
  (∀ r ∈ table415, r.maskOfCells = r.mask) ∧
  ∀ (i : Instr) (s : State), LaunchPremises s → SizeEncodable s.mode i.size →
    ∃ r ∈ table415, r.applies i.size s = true ∧
      (∀ r' ∈ table415, r'.applies i.size s = true → r' = r) ∧
      (IpFits i s → Pfx.lock ∉ i.prefixes → 1 ∈ r.notes → exec i s = .fault (.gp 0)) ∧
      (IpFits i s → Pfx.lock ∉ i.prefixes → Admits i.size s →
        (2 ∈ r.notes ∧ s.vip = true ∧ (s.stackValue i.size).getLsbD 9 = true ∨
          3 ∈ r.notes ∧ (s.stackValue i.size).getLsbD 8 = true) → exec i s = .fault (.gp 0)) ∧
      ∀ t, exec i s = .next t →
        1 ∉ r.notes ∧
        (2 ∈ r.notes → ¬(s.vip = true ∧ (s.stackValue i.size).getLsbD 9 = true)) ∧
        (3 ∈ r.notes → (s.stackValue i.size).getLsbD 8 = false) ∧
        ∀ fc ∈ r.flagCells, ∀ k ∈ fc.1.bits,
          t.rflags.getLsbD k = fc.2.bitAfter s.rflags (s.stackValue i.size) k

/-- The machine agrees with the page's Operation, read through its comments, its two #GP(0) included (the second, for the
value popped, where the read is admitted: D9, log 19), but for three shortfalls (40_popf.md R82):
the 16-bit CPL > 0 branch does not withhold IF when CPL > IOPL (C4), RF is cleared also where a branch does not say so,
which happens only at 16 bits (C3), and the VME branch is limited by its comment (C9). -/
def Obligations.OperationAgreesButForItsShortfalls : Prop :=
  ∀ (i : Instr) (s : State), LaunchPremises s → SizeEncodable s.mode i.size →
    match operation s.vm s.cr0PE s.cr4VME s.vip s.cpl s.iopl i.size (s.stackValue i.size) with
    | .gp0 =>
      (IpFits i s → Pfx.lock ∉ i.prefixes → exec i s = .fault (.gp 0)) ∧ ¬ Completes i s
    | .gp0AfterPop =>
      i.size = .w16 ∧
      (IpFits i s → Pfx.lock ∉ i.prefixes → Admits .w16 s → exec i s = .fault (.gp 0)) ∧ ¬ Completes i s
    | .popped may saysRfCleared =>
      (saysRfCleared = false → i.size = .w16) ∧
      ∀ t, exec i s = .next t →
        t.rflags = flagsUnder
          (if i.size = .w16 ∧ s.cr0PE = true ∧ s.vm = false ∧ s.iopl < s.cpl then may &&& ~~~0x200#64 else may)
          s.rflags (s.stackValue i.size)
    | .vmeBranch may =>
      i.size = .w16 ∧
      ∀ t, exec i s = .next t →
        t.rflags = ((s.rflags &&& ~~~(may ||| 0x80000#64)) ||| (s.stackValue .w16 &&& may) |||
          (if (s.stackValue .w16).getLsbD 9 then 0x80000#64 else 0#64)) &&& ~~~0x10000#64

/-- RF is 0 after every execution that completes, whatever the stack value's bit 16 (40_popf.md R72). -/
def Obligations.RfIsClearedByEveryCompletion : Prop :=
  ∀ (i : Instr) (s t : State), exec i s = .next t → t.rflags.getLsbD 16 = false

/-- VM is never written, and with CR0.PE = 1 it tells virtual-8086 mode from the other modes before and after, so
virtual-8086 mode is neither entered nor left (10_state.md R14). -/
def Obligations.VmIsNeverWritten : Prop :=
  ∀ (i : Instr) (s t : State), exec i s = .next t →
    t.rflags.getLsbD 17 = s.rflags.getLsbD 17 ∧ t.mode = s.mode ∧ t.cr0PE = s.cr0PE ∧
    (s.cr0PE = true → (s.mode = .v86 ↔ s.rflags.getLsbD 17 = true)) ∧
    (t.cr0PE = true → (t.mode = .v86 ↔ t.rflags.getLsbD 17 = true))

/-- VIP is never written; VIF is written only on the VME path, with bit 9 of the stack value; VIP is read on that path
only (virtual-8086 mode, IOPL < 3, CR4.VME = 1, 16 bits): everywhere else, the guard's forms included, a different VIP
changes nothing but VIP (10_state.md R15). -/
def Obligations.VipIsNeverWrittenAndVifOnlyOnTheVmePath : Prop :=
  (∀ (i : Instr) (s t : State), exec i s = .next t →
    t.rflags.getLsbD 20 = s.rflags.getLsbD 20 ∧
    (VirtualLow s → t.rflags.getLsbD 19 = (s.stackValue i.size).getLsbD 9) ∧
    (¬ VirtualLow s → t.rflags.getLsbD 19 = s.rflags.getLsbD 19)) ∧
  ∀ (i : Instr) (s : State), ¬(VirtualLow s ∧ s.cr4VME = true ∧ i.size = .w16) →
    exec i { s with rflags := s.rflags ^^^ 0x100000#64 } =
      mapNext (fun t => { t with rflags := t.rflags ^^^ 0x100000#64 }) (exec i s)

/-- No reserved bit is ever written: bits 1, 3, 5, 15 and 22 to 63 keep what the launch state holds (10_state.md R12). -/
def Obligations.ReservedBitsAreNeverWritten : Prop :=
  ∀ (i : Instr) (s t : State) (k : Nat), exec i s = .next t → ReservedBit k →
    t.rflags.getLsbD k = s.rflags.getLsbD k

/-- Only real-address mode and CPL 0 outside virtual-8086 mode change IOPL, and IF changes only at a level at least as
privileged as the old IOPL; the mode and CPL never change (60_exceptions.md section 6, 10_state.md sections 1 and 2). -/
def Obligations.OnlyPrivilegeChangesIoplAndIf : Prop :=
  ∀ (i : Instr) (s t : State), exec i s = .next t →
    (t.iopl ≠ s.iopl → s.mode = .real ∨ s.mode ≠ .v86 ∧ s.cpl = 0#2) ∧
    (t.rflags.getLsbD 9 ≠ s.rflags.getLsbD 9 → s.mode = .real ∨ s.cpl ≤ s.iopl) ∧
    t.cpl = s.cpl ∧ t.mode = s.mode

/-- Insufficient privilege is silent (40_popf.md R73): outside virtual-8086 mode no #GP is raised; an admitted execution
completes, IF keeps its value when CPL > IOPL and IOPL when CPL > 0, and every other bit of the mask is written. -/
def Obligations.InsufficientPrivilegeIsSilent : Prop :=
  ∀ (i : Instr) (s : State), s.mode ≠ .v86 →
    (∀ c, exec i s ≠ .fault (.gp c)) ∧
    (Ready i s → Pfx.lock ∉ i.prefixes → Admits i.size s →
      ∃ t, exec i s = .next t ∧
        t.rflags.getLsbD 9 = (if s.level ≤ s.iopl then (s.stackValue i.size).getLsbD 9 else s.rflags.getLsbD 9) ∧
        t.iopl = (if s.level = 0#2 then ioplOf (s.stackValue i.size) else s.iopl) ∧
        (∀ k ∈ [0, 2, 4, 6, 7, 8, 10, 11, 14], t.rflags.getLsbD k = (s.stackValue i.size).getLsbD k) ∧
        (i.size ≠ .w16 → ∀ k ∈ [18, 21], t.rflags.getLsbD k = (s.stackValue i.size).getLsbD k))

/-- CR4.PVI has no effect in any mode; in protected mode with CPL = 3 and IOPL < 3 the masks of 40_popf.md R66 hold and
VIF and VIP are not touched (40_popf.md R74). -/
def Obligations.PviHasNoEffect : Prop :=
  (∀ (i : Instr) (s : State) (b : Bool),
    exec i { s with cr4PVI := b } = mapNext (fun t => { t with cr4PVI := b }) (exec i s)) ∧
  ∀ (i : Instr) (s t : State), s.mode = .prot → s.cpl = 3#2 → s.iopl < 3#2 → exec i s = .next t →
    t.rflags = flagsUnder (if i.size = .w16 then 0x4DD5#64 else 0x244DD5#64) s.rflags (s.stackValue i.size) ∧
    t.rflags.getLsbD 19 = s.rflags.getLsbD 19 ∧ t.rflags.getLsbD 20 = s.rflags.getLsbD 20

/-- A completed execution changes nothing but RFLAGS, the stack pointer and ip, and of RFLAGS only RF and the bits that
40_popf.md R66 and R71 select (10_state.md section 5). -/
def Obligations.FrameOfACompletedExecution : Prop :=
  ∀ (i : Instr) (s t : State), exec i s = .next t →
    t = { s with rflags := t.rflags, rsp := t.rsp, ip := t.ip } ∧
    ∀ k, k ≠ 16 →
      (if VirtualLow s then (0x84DD5#64).getLsbD k else (tableMask i.size s).getLsbD k) = false →
      t.rflags.getLsbD k = s.rflags.getLsbD k

/-- No step writes memory: every byte reads as before (20_memory.md R38). -/
def Obligations.NoByteOfMemoryIsWritten : Prop :=
  (∀ (i : Instr) (s t : State) (a : Nat), exec i s = .next t → t.mem.read a = s.mem.read a) ∧
  ∀ (s t : State), step s = .next t → t.mem = s.mem

/-- A completed pop adds 2, 4 or 8 to SP modulo 2^StackAddrSize and leaves the register's bits above SP (10_state.md
section 3, 20_memory.md section 1; decisions D3 and D4, log 9, log 11). -/
def Obligations.StackPointerAdvancesByTheSizePopped : Prop :=
  ∀ (i : Instr) (s t : State), exec i s = .next t →
    t.rsp.toNat % 2 ^ s.stackAddrSize.bits =
      (s.rsp.toNat % 2 ^ s.stackAddrSize.bits + i.size.bytes) % 2 ^ s.stackAddrSize.bits ∧
    t.rsp.toNat / 2 ^ s.stackAddrSize.bits = s.rsp.toNat / 2 ^ s.stackAddrSize.bits

/-- A completed execution adds the instruction's length to ip, without a wrap (10_state.md section 3, 40_popf.md section 3;
decision D7, log 12, log 13). -/
def Obligations.IpAdvancesByTheLength : Prop :=
  ∀ (i : Instr) (s t : State), exec i s = .next t →
    t.ip.toNat = s.ip.toNat + i.prefixes.length + 1 ∧ t.ip.toNat < 2 ^ (ipWidth s.mode).bits

/-- The value popped is the bytes at offsets SP, SP + 1, … modulo 2^StackAddrSize from the stack base, the byte at the
lowest offset least significant (20_memory.md sections 1 and 3; decisions D4 and D5, log 4, log 9, log 10). -/
def Obligations.ValuePoppedIsLittleEndianAtSp : Prop :=
  ∀ (s : State) (size : Width) (k : Nat),
    (k < size.bits → (s.stackValue size).getLsbD k =
      (s.mem.read ((s.stackBase.toNat + (s.rsp.toNat + k / 8) % 2 ^ s.stackAddrSize.bits) % 2 ^ 64)).getLsbD (k % 8)) ∧
    (size.bits ≤ k → (s.stackValue size).getLsbD k = false)

/-- Stack-value bits outside the mask are ignored: two stacks that agree on the mask (on the VME path: on the bits it
copies and bit 9) give the same outcome, faults included (40_popf.md section 3, decision D18). -/
def Obligations.BitsOutsideTheMaskAreIgnored : Prop :=
  ∀ (i : Instr) (s : State) (m : Memory),
    ((s.stackValue i.size ^^^ ({ s with mem := m } : State).stackValue i.size) &&&
      (if VirtualLow s then 0x4FD5#64 else tableMask i.size s)) = 0#64 →
    exec i { s with mem := m } = mapNext (fun t => { t with mem := m }) (exec i s)

/-- In real-address mode the CPL field is not consulted (10_state.md section 2, 40_popf.md section 3 item 11, log 30). -/
def Obligations.RealModeIgnoresTheCplField : Prop :=
  ∀ (i : Instr) (s : State) (c : BitVec 2), s.mode = .real →
    exec i { s with cpl := c } = mapNext (fun t => { t with cpl := c }) (exec i s)

/-- CR4.VME is read only in virtual-8086 mode with IOPL < 3: elsewhere, on a processor that has VME, it makes no
difference (10_state.md section 2, 40_popf.md section 3 item 10). -/
def Obligations.VmeMattersOnlyInVirtualModeBelowIopl3 : Prop :=
  ∀ (i : Instr) (s : State) (b : Bool), ¬ VirtualLow s → s.hasVME = true →
    exec i { s with cr4VME := b } = mapNext (fun t => { t with cr4VME := b }) (exec i s)

/-- Popping the value held changes RFLAGS only in RF, which is cleared (40_popf.md section 3, R80 item 1), and on the VME
path in VIF too, which takes the popped IF: R71's words, which item 1 does not repeat. -/
def Obligations.PoppingTheHeldValueChangesOnlyRfAndOnTheVmePathVif : Prop :=
  ∀ (i : Instr) (s t : State), exec i s = .next t →
    (∀ k < i.size.bits, (s.stackValue i.size).getLsbD k = s.rflags.getLsbD k) →
    ∀ k, k ≠ 16 → (k ≠ 19 ∨ ¬ VirtualLow s) → t.rflags.getLsbD k = s.rflags.getLsbD k

/-! ## Exceptions -/

/-- #UD exactly with the LOCK prefix, in every launch state the machine does not refuse, whatever else holds
(60_exceptions.md section 1, 30_encoding.md section 3). That it comes before every other exception is PRESUMED (D9, log
19), that the refusals come before it is the model's choice (log 20). -/
def Obligations.LockRaisesUdBeforeAnyOtherTest : Prop :=
  ∀ (i : Instr) (s : State), Ready i s → (exec i s = .fault .ud ↔ Pfx.lock ∈ i.prefixes)

/-- The guard of virtual-8086 mode (40_popf.md section 1): with IOPL < 3 and the 32-bit size or no VME, #GP(0), whatever
the stack access would answer; with IOPL = 3 an admitted execution completes; with IOPL < 3 and VME an admitted POPF
completes where the stack value passes R71's test, and the guard never raises for it. That LOCK's #UD is tested before the
guard is PRESUMED (log 19), that the refusals are is the model's choice (log 20). -/
def Obligations.VirtualModeGuardRaisesGpBeforeTheStackRead : Prop :=
  ∀ (i : Instr) (s : State), Ready i s → Pfx.lock ∉ i.prefixes → s.mode = .v86 →
    (s.iopl < 3#2 → i.size = .w32 ∨ s.cr4VME = false → exec i s = .fault (.gp 0)) ∧
    (s.iopl = 3#2 → Admits i.size s → Completes i s) ∧
    (s.iopl < 3#2 → i.size = .w16 → s.cr4VME = true → Admits .w16 s →
      ¬(s.vip = true ∧ (s.stackValue .w16).getLsbD 9 = true) → (s.stackValue .w16).getLsbD 8 = false → Completes i s)

/-- The VME path raises #GP(0) for a stack value with TF, or with IF while VIP is set (40_popf.md section 1, notes 2 and 3;
the order after the stack read is D9's, log 19; which byte holds the two bits is log 10's). -/
def Obligations.VmePathRaisesGpForTheStackValue : Prop :=
  ∀ (pre : List Pfx) (s : State), Ready (.popf pre) s → Pfx.lock ∉ pre → Admits .w16 s → VirtualLow s →
    s.cr4VME = true →
    (s.vip = true ∧ (s.stackByte 1).getLsbD 1 = true ∨ (s.stackByte 1).getLsbD 0 = true) →
    exec (.popf pre) s = .fault (.gp 0)

/-- The stack read's exceptions, after LOCK and the guard and before the test of the value: #SS, without a code in
real-address mode, then #AC(0), then #PF with the code `StackAccess` gives (60_exceptions.md sections 1 and 2; decisions D9
and D10, log 5, log 19). -/
def Obligations.StackReadFaultsInOrder : Prop :=
  ∀ (i : Instr) (s : State), Ready i s → Pfx.lock ∉ i.prefixes →
    ¬(VirtualLow s ∧ (i.size = .w32 ∨ s.cr4VME = false)) →
    (s.stackQuery i.size ∈ s.ssFaults →
      exec i s = .fault (.ss (if s.mode = .real then none else some 0))) ∧
    (s.stackQuery i.size ∉ s.ssFaults → s.alignCheckApplies = true → s.unaligned i.size = true →
      exec i s = .fault (.ac 0)) ∧
    (s.stackQuery i.size ∉ s.ssFaults → ¬(s.alignCheckApplies = true ∧ s.unaligned i.size = true) →
      s.mode ≠ .real → ∀ p, s.pageFaults.find? (fun p => p.1 == s.stackQuery i.size) = some p →
      exec i s = .fault (.pf p.2))

/-- #AC is raised only for an address that is no multiple of the size, never in real-address mode, and under the default
`AlignCheckEnabled` only with CR0.AM, the OLD EFLAGS.AC and CPL 3 (20_memory.md section 2; decision D11, log 7, log 8). -/
def Obligations.AlignmentCheckNeedsOldAcAtLevel3 : Prop :=
  ∀ (i : Instr) (s : State) (c : ErrorCode), exec i s = .fault (.ac c) →
    c = 0 ∧ s.mode ≠ .real ∧
    (s.stackBase.toNat + s.rsp.toNat % 2 ^ s.stackAddrSize.bits) % 2 ^ 64 % i.size.bytes ≠ 0 ∧
    (s.mode = .v86 ∨ s.cpl = 3#2) ∧
    (s.alignCheck = none → s.cr0AM = true ∧ s.rflags.getLsbD 18 = true ∧ s.cpl = 3#2) ∧
    s.alignCheck ≠ some false

/-- The matrix of mode against exception (60_exceptions.md section 1): an exception, with its code, is raised in a mode
exactly where the matrix has a yes, and under its conditions. That 64-bit mode never raises #GP(0) is D17's, DEDUCED (log
26); the #SS and #PF conditions are the tables of log 5 (log 6 for real-address mode); that byte 1 of the read holds IF and
TF is PRESUMED (log 10). -/
def Obligations.ExceptionsFollowTheMatrixOfModes : Prop :=
  (∀ (m : Mode) (f : Fault),
    (∃ i s, s.mode = m ∧ exec i s = .fault f) ↔
      match f with
      | .ud => True
      | .ss code => code = if m = .real then none else some 0
      | .pf _ => m ≠ .real
      | .ac code => m ≠ .real ∧ code = 0
      | .gp code => m = .v86 ∧ code = 0) ∧
  ∀ (i : Instr) (s : State) (f : Fault), exec i s = .fault f →
    match f with
    | .ud => Pfx.lock ∈ i.prefixes
    | .ss _ => s.stackQuery i.size ∈ s.ssFaults
    | .pf code => (s.stackQuery i.size, code) ∈ s.pageFaults
    | .ac _ => s.alignCheckEnabled = true ∧ (s.mode = .v86 ∨ s.cpl = 3#2)
    | .gp _ => s.iopl < 3#2 ∧
      (i.size = .w32 ∨ s.cr4VME = false ∨ s.vip = true ∧ (s.stackByte 1).getLsbD 1 = true ∨
        (s.stackByte 1).getLsbD 0 = true)

/-! ## Invariants, reset, runs -/

/-- Every step keeps the machine's invariant: the launch premises, the canonical memory, the reserved bits, the width of
ip (70_reset_and_hazards.md section 2). -/
def Obligations.StepKeepsTheInvariant : Prop :=
  ∀ s t : State, Inv s → step s = .next t → Inv t

/-- The state after reset meets the invariant. Its values are the family's, PRESUMED (log 1, log 2). -/
def Obligations.ResetMeetsTheInvariant : Prop := Inv State.reset

/-- The state after reset holds the family's values that 10_state.md section 4 lists as general knowledge (PRESUMED, log 1):
the spec itself states none. -/
def Obligations.ResetHoldsTheFamilysValues : Prop :=
  State.reset.rflags = 0x2#64 ∧ State.reset.cpl = 0#2 ∧ State.reset.cr0PE = false ∧
  State.reset.cr4VME = false ∧ State.reset.cr4PVI = false ∧ State.reset.rsp = 0#64 ∧
  State.reset.stackBase = 0#64 ∧ State.reset.ip = 0xFFF0#64 ∧ State.reset.codeBase = 0xFFFF0000#64 ∧
  State.reset.mode = .real

/-- A run ends normally at the end of the program, in a fault in the very state the step raised it in, or in a refusal,
and throughout it nothing but RFLAGS other than VM, the stack pointer and ip changes (70_reset_and_hazards.md section 5,
60_exceptions.md section 3; decisions D6 and D20, log 18, log 32). -/
def Obligations.RunsEndWhereTheSpecSays : Prop :=
  ∀ (past : Quad) (n : Nat) (s : State),
    match run past n s with
    | .done t => t.ip = past ∧ SameContext s t
    | .running t => t.ip ≠ past ∧ SameContext s t
    | .faulted f t => t.ip ≠ past ∧ step t = .fault f ∧ SameContext s t
    | .refused r t => t.ip ≠ past ∧ step t = .refused r ∧ SameContext s t
end

