-- ==== Sys2Proof/Laws/Decode.lean ====
section
/-! SUPPORT. What the decoder and the fetch answer, each said once: `instrOf`, the scan of the prefixes, the bytes a
fetch sees. -/

namespace Sys2Proof

theorem instrOf_prefixes (w : Width) (ps : List Pfx) : (instrOf w ps).prefixes = ps := by cases w <;> rfl
theorem instrOf_size (w : Width) (ps : List Pfx) : (instrOf w ps).size = w := by cases w <;> rfl
theorem instrOf_eta (i : Instr) : instrOf i.size i.prefixes = i := by cases i <;> rfl

theorem pfxOf_byte (p : Pfx) : pfxOf p.byte = some p := by cases p <;> decide
theorem byte_ne_opcode (p : Pfx) : p.byte ≠ opcodeByte := by cases p <;> decide

theorem byte_of_pfxOf {b : Byte} {p : Pfx} (h : pfxOf b = some p) : p.byte = b := by
  unfold pfxOf at h
  split at h
  · cases h; simp_all [Pfx.byte]
  · split at h <;> cases h; simp_all [Pfx.byte]

/-- An admitted string of prefixes and the opcode byte scan to those prefixes. -/
theorem scanPrefixes_encode (m : Mode) (ps : List Pfx) (rest : List Byte) (h : ps.count .lock ≤ 1) :
    scanPrefixes m (ps.map Pfx.byte ++ [opcodeByte] ++ rest) = .ok (ps, rest) := by
  induction ps with
  | nil => simp [scanPrefixes]
  | cons p ps ih =>
    have ih := ih (by grind)
    simp only [List.map_cons, List.cons_append, scanPrefixes, byte_ne_opcode, if_false, pfxOf_byte]
    rw [ih]
    have : ¬ (p = .lock ∧ Pfx.lock ∈ ps) := by
      rintro ⟨rfl, hm⟩
      have := List.one_le_count_iff.2 hm
      simp at h
      omega
    simp [this]

/-- What a scan accepts: an admitted string of prefixes, the opcode byte, the rest. -/
theorem scanPrefixes_ok {m : Mode} {bs : List Byte} {ps : List Pfx} {rest : List Byte}
    (h : scanPrefixes m bs = .ok (ps, rest)) :
    ps.count .lock ≤ 1 ∧ bs = ps.map Pfx.byte ++ [opcodeByte] ++ rest := by
  induction bs generalizing ps with
  | nil => simp [scanPrefixes] at h
  | cons b bs ih =>
    rw [scanPrefixes] at h
    split at h
    · cases h; simp_all
    split at h
    · simp at h
    rename_i p hp
    split at h
    · simp at h
    rename_i ps' rest' hs
    split at h
    · simp at h
    rename_i hn
    simp only [Except.ok.injEq, Prod.mk.injEq] at h
    obtain ⟨rfl, rfl⟩ := h
    obtain ⟨h1, rfl⟩ := ih hs
    refine ⟨?_, by simp [byte_of_pfxOf hp]⟩
    cases p with
    | opSize => simpa using h1
    | lock =>
      have : List.count Pfx.lock ps' = 0 := List.count_eq_zero.2 (by grind)
      simp [this]

/-- Prefixes with no opcode byte after them are refused as cut off. -/
theorem scanPrefixes_truncated (m : Mode) (ps : List Pfx) :
    scanPrefixes m (ps.map Pfx.byte) = .error .truncated := by
  induction ps with
  | nil => rfl
  | cons p ps ih => simp [scanPrefixes, byte_ne_opcode, pfxOf_byte, ih]

end Sys2Proof

namespace Sys2Proof.Machine

theorem bytesFrom_length (m : Memory) (n : Nat) (a : Quad) : (m.bytesFrom n a).length = n := by
  induction n generalizing a with
  | zero => rfl
  | succ n ih => simp [Memory.bytesFrom, ih]

theorem bytesFrom_getElem (m : Memory) (n : Nat) (a : Quad) (k : Nat) (h : k < (m.bytesFrom n a).length) :
    (m.bytesFrom n a)[k] = m.read (a + BitVec.ofNat 64 k).toNat := by
  induction n generalizing a k with
  | zero => simp [Memory.bytesFrom] at h
  | succ n ih =>
    cases k with
    | zero => simp [Memory.bytesFrom]
    | succ k =>
      simp only [Memory.bytesFrom, List.getElem_cons_succ]
      rw [ih]
      congr 2
      rw [BitVec.add_assoc]; congr 1
      apply BitVec.eq_of_toNat_eq; simp [Nat.add_comm]

/-- What a fetch sees of bytes that stand at ip: all of them and more, or as many as the window holds. -/
theorem fetchBytes_of_bytesAtIp {s : State} {bs : List Byte} (h : BytesAtIp s bs) :
    (bs.length ≤ s.fetchWindow → ∃ rest, s.fetchBytes = bs ++ rest) ∧
    (s.fetchWindow ≤ bs.length → s.fetchBytes = bs.take s.fetchWindow) := by
  have key : ∀ k (h1 : k < s.fetchBytes.length) (h2 : k < bs.length), s.fetchBytes[k] = bs[k] := by
    intro k h1 h2
    rw [← h k h2]
    exact bytesFrom_getElem ..
  have hl : s.fetchBytes.length = s.fetchWindow := bytesFrom_length ..
  constructor
  · intro hle
    refine ⟨s.fetchBytes.drop bs.length, List.ext_getElem (by simp; omega) fun k h1 h2 => ?_⟩
    by_cases hk : k < bs.length
    · rw [List.getElem_append_left hk, key k h1 hk]
    · rw [List.getElem_append_right (by omega), List.getElem_drop]
      congr 1; omega
  · intro hle
    refine List.ext_getElem (by simp; omega) fun k h1 h2 => ?_
    rw [List.getElem_take, key k h1 (by omega)]

end Sys2Proof.Machine
end

