-- ==== Sys2Proof/Laws/Flags.lean ====
section
/-! SUPPORT. The new flags bit by bit: under a mask, on the VME path, and which bits no mask has. -/

namespace Sys2Proof.Machine

theorem twoPow_getLsbD (j k : Nat) (hj : j < 64) : (BitVec.twoPow 64 j).getLsbD k = decide (k = j) := by
  rw [BitVec.getLsbD_twoPow, decide_eq_true hj, Bool.true_and]
  exact decide_eq_decide.2 eq_comm

/-- Each bit after an execution under a mask: RF is 0, a bit of the mask comes from the stack, the others stay. -/
theorem flagsUnder_getLsbD (m o t : Quad) (k : Nat) :
    (flagsUnder m o t).getLsbD k =
      (if k = 16 then false else if m.getLsbD k then t.getLsbD k else o.getLsbD k) := by
  by_cases hk : k < 64
  · have h16 : (0x10000#64).getLsbD k = decide (k = 16) := by
      rw [show (0x10000#64) = BitVec.twoPow 64 16 from rfl, twoPow_getLsbD _ _ (by omega)]
    simp only [flagsUnder, BitVec.getLsbD_and, BitVec.getLsbD_or, BitVec.getLsbD_not, hk, decide_true, Bool.true_and,
      h16]
    by_cases h : k = 16 <;> cases m.getLsbD k <;> simp [h]
  · rw [BitVec.getLsbD_of_ge _ _ (by omega), BitVec.getLsbD_of_ge t _ (by omega), BitVec.getLsbD_of_ge o _ (by omega)]
    simp

/-- Each bit after an execution on the VME path: RF is 0, VIF is the stack value's bit 9, the nine arithmetic and control
flags come from the stack, the others stay. -/
theorem flagsUnderVme_getLsbD (o t : Quad) (k : Nat) :
    (flagsUnderVme o t).getLsbD k =
      (if k = 16 then false else if k = 19 then t.getLsbD 9
        else if (0x4DD5#64).getLsbD k then t.getLsbD k else o.getLsbD k) := by
  by_cases hk : k < 64
  · have h16 := fun j hj => twoPow_getLsbD j k hj
    unfold flagsUnderVme
    rw [show (0x10000#64) = BitVec.twoPow 64 16 from rfl,
      show (0x84DD5#64) = 0x4DD5#64 ||| BitVec.twoPow 64 19 from rfl,
      show (0x80000#64) = BitVec.twoPow 64 19 from rfl]
    simp only [BitVec.getLsbD_and, BitVec.getLsbD_or, BitVec.getLsbD_not, hk, decide_true, Bool.true_and,
      h16 16 (by omega), h16 19 (by omega)]
    have : (if t.getLsbD 9 = true then BitVec.twoPow 64 19 else 0#64).getLsbD k =
        (t.getLsbD 9 && decide (k = 19)) := by
      split <;> simp_all
    rw [this]
    by_cases h : k = 16
    · simp [h]
    · by_cases h : k = 19
      · subst h; simp
      · cases hb : (0x4DD5#64).getLsbD k <;> simp [*]
  · have h1 : k ≠ 19 := by omega
    rw [BitVec.getLsbD_of_ge _ _ (by omega), BitVec.getLsbD_of_ge t k (by omega), BitVec.getLsbD_of_ge o _ (by omega)]
    simp [h1]

/-- No mask of 40_popf.md R66 has a bit of RF, VM, VIF or VIP or a reserved bit. -/
theorem tableMask_getLsbD_of_not_mem (size : Width) (s : State) (k : Nat)
    (h : k ∉ [0, 2, 4, 6, 7, 8, 9, 10, 11, 12, 13, 14, 18, 21]) : (tableMask size s).getLsbD k = false := by
  by_cases hk : k < 64
  · unfold tableMask; dsimp only
    (repeat' split) <;> (revert h; revert k; decide)
  · exact BitVec.getLsbD_of_ge _ _ (by omega)

/-- `BASE` has the nine arithmetic and control flags and nothing else. -/
theorem base_getLsbD_of_not_mem (k : Nat) (h : k ∉ [0, 2, 4, 6, 7, 8, 10, 11, 14]) :
    (0x4DD5#64).getLsbD k = false := by
  by_cases hk : k < 64
  · (revert h; revert k; decide)
  · exact BitVec.getLsbD_of_ge _ _ (by omega)

/-- IOPL is decided by bits 12 and 13 (10_state.md R16). -/
theorem ioplOf_congr {r r' : Quad} (h1 : r.getLsbD 12 = r'.getLsbD 12) (h2 : r.getLsbD 13 = r'.getLsbD 13) :
    ioplOf r = ioplOf r' := by
  apply BitVec.eq_of_getLsbD_eq
  intro k hk
  simp only [ioplOf, BitVec.getLsbD_extractLsb']
  interval_cases k <;> simp <;> assumption

end Sys2Proof.Machine
end

