-- ==== Sys2Proof/Laws/Memory.lean ====
section
/-! SUPPORT. Memory: a read after a write, and that every operation keeps the canonical form. -/

namespace Sys2Proof.Machine

theorem wf_cons {c : Host.Cell} {m : Memory} :
    Memory.wf (c :: m) ↔
      (∀ d ∈ m, c.1 < d.1) ∧ (c.1 < 2 ^ 64 ∧ c.2 ≠ unlistedByte) ∧ Memory.wf m := by
  unfold Memory.wf
  rw [List.pairwise_cons, List.forall_mem_cons]
  tauto

/-- An address below every listed one reads as unlisted. -/
theorem read_of_below {m : Memory} {a : Nat} (h : ∀ d ∈ m, a < d.1) : m.read a = unlistedByte := by
  induction m with
  | nil => rfl
  | cons c m ih =>
    have hc := h c List.mem_cons_self
    rw [Memory.read, if_neg (by omega)]
    exact ih fun d hd => h d (List.mem_cons_of_mem _ hd)

/-- Reading any address after a write (20_memory.md, the laws of memory). -/
theorem read_write {m : Memory} (hm : m.wf) (a : Nat) (b : Byte) (x : Nat) :
    (m.write a b).read x = if x = a then b else m.read x := by
  induction m with
  | nil => grind [Memory.write, Memory.read]
  | cons c m ih =>
    obtain ⟨hlt, -, hm'⟩ := wf_cons.1 hm
    have below : ∀ y ≤ c.1, Memory.read m y = unlistedByte := fun y hy =>
      read_of_below fun d hd => lt_of_le_of_lt hy (hlt d hd)
    have ih := ih hm'
    grind [Memory.write, Memory.read]

/-- The addresses a write lists are the old ones and the written one. -/
theorem mem_write {m : Memory} {a : Nat} {b : Byte} {d : Host.Cell} (h : d ∈ m.write a b) :
    d ∈ m ∨ d = (a, b) := by
  induction m with
  | nil => grind [Memory.write]
  | cons c m ih => grind [Memory.write]

/-- A write keeps the canonical form. -/
theorem write_wf {m : Memory} (hm : m.wf) {a : Nat} (ha : a < 2 ^ 64) (b : Byte) : (m.write a b).wf := by
  induction m with
  | nil =>
    rw [Memory.write]
    split
    · exact hm
    · exact wf_cons.2 ⟨by simp, ⟨ha, ‹_›⟩, hm⟩
  | cons c m ih =>
    obtain ⟨hlt, hc, hm'⟩ := wf_cons.1 hm
    rw [Memory.write]
    split
    · split
      · exact hm
      · refine wf_cons.2 ⟨fun d hd => ?_, ⟨ha, ‹_›⟩, hm⟩
        rcases List.mem_cons.1 hd with rfl | hd
        · assumption
        · exact lt_trans ‹_› (hlt d hd)
    · split
      · subst a
        split
        · exact hm'
        · exact wf_cons.2 ⟨hlt, ⟨ha, ‹_›⟩, hm'⟩
      · refine wf_cons.2 ⟨fun d hd => ?_, hc, ih hm'⟩
        rcases mem_write hd with hd | rfl
        · exact hlt d hd
        · show c.1 < a
          omega

/-- Placing bytes keeps the canonical form. -/
theorem store_wf {m : Memory} (hm : m.wf) (a : Quad) (bs : List Byte) : (m.store a bs).wf := by
  induction bs generalizing m a with
  | nil => exact hm
  | cons b bs ih => exact ih (write_wf hm a.isLt b) _

/-- Placing a table word at ip keeps the canonical form. -/
theorem withFetchWord_wf {s : State} (hs : s.mem.wf) (nbits w : Nat) : (s.withFetchWord nbits w).mem.wf :=
  store_wf hs _ _

theorem reset_mem_wf : State.reset.mem.wf := by decide

end Sys2Proof.Machine
end

