-- ==== Sys2Proof/Laws/Operands.lean ====
section
/-! SUPPORT. The stack operand: offsets and addresses as numbers, the bits of the value popped, the new stack pointer,
the answers of `StackAccess`. -/

namespace Sys2Proof.Machine

theorem width_bits_le (w : Width) : w.bits ≤ 64 := by cases w <;> decide
theorem width_bits_eq (w : Width) : w.bits = 8 * w.bytes := by cases w <;> rfl

theorem spMask_toNat (w : Width) : (spMask w).toNat = 2 ^ w.bits - 1 := by cases w <;> rfl

theorem spMask_getLsbD (w : Width) (k : Nat) : (spMask w).getLsbD k = decide (k < w.bits) := by
  rw [BitVec.getLsbD, spMask_toNat, Nat.testBit_two_pow_sub_one]

/-- The part of a register that SP shows, as a number. -/
theorem and_spMask_toNat (x : Quad) (w : Width) : (x &&& spMask w).toNat = x.toNat % 2 ^ w.bits := by
  rw [BitVec.toNat_and, spMask_toNat, Nat.and_two_pow_sub_one_eq_mod]

/-- The offset of byte `k` is SP + k modulo 2^StackAddrSize (20_memory.md R30). -/
theorem stackOffset_toNat (s : State) (k : Nat) :
    (s.stackOffset k).toNat = (s.rsp.toNat + k) % 2 ^ s.stackAddrSize.bits := by
  rw [State.stackOffset, and_spMask_toNat, BitVec.toNat_add, BitVec.toNat_ofNat]
  have := Nat.pow_dvd_pow 2 (width_bits_le s.stackAddrSize)
  rw [Nat.mod_mod_of_dvd _ this, Nat.add_mod, Nat.mod_mod_of_dvd _ this, ← Nat.add_mod]

/-- The address of byte `k` is the stack base plus its offset (20_memory.md R37, log 4). -/
theorem stackAddress_toNat (s : State) (k : Nat) :
    (s.stackAddress k).toNat =
      (s.stackBase.toNat + (s.rsp.toNat + k) % 2 ^ s.stackAddrSize.bits) % 2 ^ 64 := by
  rw [State.stackAddress, BitVec.toNat_add, stackOffset_toNat]

/-- Bit `k` of bytes put together little-endian is bit `k % 8` of byte `k / 8`. -/
theorem littleEndian_getLsbD (l : List Byte) (k : Nat) (hk : k < 64) :
    (littleEndian l).getLsbD k = ((l[k / 8]?).getD 0).getLsbD (k % 8) := by
  induction l generalizing k with
  | nil => simp [littleEndian]
  | cons b bs ih =>
    simp only [littleEndian, BitVec.getLsbD_or, BitVec.getLsbD_shiftLeft, BitVec.getLsbD_setWidth, hk, decide_true,
      Bool.true_and]
    by_cases h : k < 8
    · simp [h, Nat.div_eq_of_lt h, Nat.mod_eq_of_lt h]
    · have : k / 8 = (k - 8) / 8 + 1 := by omega
      rw [ih _ (by omega), this, BitVec.getLsbD_of_ge b k (by omega)]
      simp [h]
      congr 1; omega

/-- Bit `k` of the value popped (20_memory.md R32). -/
theorem stackValue_getLsbD (s : State) (size : Width) (k : Nat) (hk : k < 64) :
    (s.stackValue size).getLsbD k = if k < size.bits then (s.stackByte (k / 8)).getLsbD (k % 8) else false := by
  have e := width_bits_eq size
  rw [State.stackValue, littleEndian_getLsbD _ _ hk, List.getElem?_map]
  by_cases h : k / 8 < size.bytes
  · rw [List.getElem?_range h, if_pos (by omega)]; rfl
  · rw [List.getElem?_eq_none (by simpa using h), if_neg (by omega)]; simp

/-- The two halves of the new stack-pointer register: its low part is `y`'s, the rest `x`'s (10_state.md R21). -/
theorem merge_spMask (x y : Quad) (w : Width) :
    ((x &&& ~~~ spMask w) ||| (y &&& spMask w)).toNat % 2 ^ w.bits = y.toNat % 2 ^ w.bits ∧
    ((x &&& ~~~ spMask w) ||| (y &&& spMask w)).toNat / 2 ^ w.bits = x.toNat / 2 ^ w.bits := by
  have hb := width_bits_le w
  constructor
  · apply Nat.eq_of_testBit_eq
    intro k
    simp only [Nat.testBit_mod_two_pow, ← BitVec.getLsbD.eq_1, BitVec.getLsbD_or, BitVec.getLsbD_and,
      BitVec.getLsbD_not, spMask_getLsbD]
    by_cases h : k < w.bits <;> simp [h]
  · apply Nat.eq_of_testBit_eq
    intro k
    simp only [Nat.testBit_div_two_pow, ← BitVec.getLsbD.eq_1, BitVec.getLsbD_or, BitVec.getLsbD_and,
      BitVec.getLsbD_not, spMask_getLsbD]
    have h : ¬ (k + w.bits < w.bits) := by omega
    simp [h]
    intro h2; have := BitVec.lt_of_getLsbD h2; omega

/-- The table of #PF answers is read at its first entry for the access. -/
theorem pageFaultCode_eq_find (q : Access) (ps : List (Access × ErrorCode)) :
    pageFaultCode q ps = (ps.find? (fun p => p.1 == q)).map Prod.snd := by
  induction ps with
  | nil => rfl
  | cons p ps ih =>
    rw [pageFaultCode, List.find?_cons, ih]
    by_cases h : p.1 = q
    · simp [h]
    · rw [if_neg h, beq_eq_false_iff_ne.2 h]

/-- The exceptions the stack read can raise, and what each needs (20_memory.md R36). -/
theorem stackFault_cases {s : State} {size : Width} {f : Fault} (hf : s.stackFault size = some f) :
    (f = ssFault s.mode ∧ s.stackQuery size ∈ s.ssFaults) ∨
    (f = .ac 0 ∧ s.alignCheckApplies = true ∧ s.unaligned size = true) ∨
    (s.mode ≠ .real ∧ ∃ c, f = .pf c ∧ (s.stackQuery size, c) ∈ s.pageFaults) := by
  unfold State.stackFault at hf
  split at hf
  · exact .inl ⟨by simpa using hf.symm, ‹_›⟩
  split at hf
  · exact .inr (.inl ⟨by simpa using hf.symm, by simp_all, by simp_all⟩)
  split at hf
  · cases hf
  rw [pageFaultCode_eq_find] at hf
  obtain ⟨c, hc, rfl⟩ := Option.map_eq_some_iff.1 hf
  obtain ⟨q, hq, rfl⟩ := Option.map_eq_some_iff.1 hc
  refine .inr (.inr ⟨‹_›, _, rfl, ?_⟩)
  have h1 := List.mem_of_find?_eq_some hq
  have h2 := List.find?_some hq
  simp at h2
  rw [← h2]; exact h1

end Sys2Proof.Machine
end

