-- ==== Sys2Proof/Laws/PerInstr.lean ====
section
/-! SUPPORT. A family of statements, one lemma per constructor of Instr: the encoding of an instruction has the length
that the instruction pointer moves by (30_encoding.md R50). -/

namespace Sys2Proof.Laws.EncodeLength

/-- The encoding is as long as the instruction. -/
def Statement (i : Instr) : Prop := (encode i).length = i.length

theorem popf (pre : List Pfx) : Statement (.popf pre) := by simp [Statement, encode, Instr.length]
theorem popfd (pre : List Pfx) : Statement (.popfd pre) := by simp [Statement, encode, Instr.length]
theorem popfq (pre : List Pfx) : Statement (.popfq pre) := by simp [Statement, encode, Instr.length]

end Sys2Proof.Laws.EncodeLength
end

