-- ==== Sys2Proof/Laws/State.lean ====
section
/-! SUPPORT. One lemma per field of State for each update: what a completed execution commits, and what placing a word
changes. -/

namespace Sys2Proof.Machine

section Commit
variable (s : State) (f p q : Quad)

@[simp] theorem commit_rflags : (s.commit f p q).rflags = f := rfl
@[simp] theorem commit_rsp : (s.commit f p q).rsp = p := rfl
@[simp] theorem commit_ip : (s.commit f p q).ip = q := rfl
@[simp] theorem commit_cpl : (s.commit f p q).cpl = s.cpl := rfl
@[simp] theorem commit_mode : (s.commit f p q).mode = s.mode := rfl
@[simp] theorem commit_cr0PE : (s.commit f p q).cr0PE = s.cr0PE := rfl
@[simp] theorem commit_cr0AM : (s.commit f p q).cr0AM = s.cr0AM := rfl
@[simp] theorem commit_cr4VME : (s.commit f p q).cr4VME = s.cr4VME := rfl
@[simp] theorem commit_cr4PVI : (s.commit f p q).cr4PVI = s.cr4PVI := rfl
@[simp] theorem commit_hasVME : (s.commit f p q).hasVME = s.hasVME := rfl
@[simp] theorem commit_defaultSize : (s.commit f p q).defaultSize = s.defaultSize := rfl
@[simp] theorem commit_stackAddrSize : (s.commit f p q).stackAddrSize = s.stackAddrSize := rfl
@[simp] theorem commit_stackBase : (s.commit f p q).stackBase = s.stackBase := rfl
@[simp] theorem commit_codeBase : (s.commit f p q).codeBase = s.codeBase := rfl
@[simp] theorem commit_alignCheck : (s.commit f p q).alignCheck = s.alignCheck := rfl
@[simp] theorem commit_ssFaults : (s.commit f p q).ssFaults = s.ssFaults := rfl
@[simp] theorem commit_pageFaults : (s.commit f p q).pageFaults = s.pageFaults := rfl
@[simp] theorem commit_mem : (s.commit f p q).mem = s.mem := rfl

end Commit

section Place
variable (s : State) (nbits w : Nat)

@[simp] theorem withFetchWord_rflags : (s.withFetchWord nbits w).rflags = s.rflags := rfl
@[simp] theorem withFetchWord_rsp : (s.withFetchWord nbits w).rsp = s.rsp := rfl
@[simp] theorem withFetchWord_ip : (s.withFetchWord nbits w).ip = s.ip := rfl
@[simp] theorem withFetchWord_cpl : (s.withFetchWord nbits w).cpl = s.cpl := rfl
@[simp] theorem withFetchWord_mode : (s.withFetchWord nbits w).mode = s.mode := rfl
@[simp] theorem withFetchWord_cr0PE : (s.withFetchWord nbits w).cr0PE = s.cr0PE := rfl
@[simp] theorem withFetchWord_cr0AM : (s.withFetchWord nbits w).cr0AM = s.cr0AM := rfl
@[simp] theorem withFetchWord_cr4VME : (s.withFetchWord nbits w).cr4VME = s.cr4VME := rfl
@[simp] theorem withFetchWord_cr4PVI : (s.withFetchWord nbits w).cr4PVI = s.cr4PVI := rfl
@[simp] theorem withFetchWord_hasVME : (s.withFetchWord nbits w).hasVME = s.hasVME := rfl
@[simp] theorem withFetchWord_defaultSize : (s.withFetchWord nbits w).defaultSize = s.defaultSize := rfl
@[simp] theorem withFetchWord_stackAddrSize : (s.withFetchWord nbits w).stackAddrSize = s.stackAddrSize := rfl
@[simp] theorem withFetchWord_stackBase : (s.withFetchWord nbits w).stackBase = s.stackBase := rfl
@[simp] theorem withFetchWord_codeBase : (s.withFetchWord nbits w).codeBase = s.codeBase := rfl
@[simp] theorem withFetchWord_alignCheck : (s.withFetchWord nbits w).alignCheck = s.alignCheck := rfl
@[simp] theorem withFetchWord_ssFaults : (s.withFetchWord nbits w).ssFaults = s.ssFaults := rfl
@[simp] theorem withFetchWord_pageFaults : (s.withFetchWord nbits w).pageFaults = s.pageFaults := rfl
@[simp] theorem withFetchWord_mem : (s.withFetchWord nbits w).mem = s.placeWord nbits w := rfl

end Place

end Sys2Proof.Machine
end

