-- ==== Sys2Proof/Laws/Popf.lean ====
section
/-! SUPPORT. Everything the shared operations can do, each said once: the launch check, the stack read, the pop, one
execution. -/

namespace Sys2Proof.Machine

/-- The three meanings are one operation at three sizes. -/
theorem exec_eq_popFlags (i : Instr) (s : State) : exec i s = popFlags i.size i.prefixes s := by
  cases i <;> rfl

/-- The launch check passes exactly under the spec's premises. -/
theorem launchRefusal_eq_none_iff (size : Width) (len : Nat) (s : State) :
    launchRefusal size len s = none ↔
      LaunchPremises s ∧ SizeEncodable s.mode size ∧ s.ip.toNat + len < 2 ^ (ipWidth s.mode).bits := by
  have enc : encodable s.mode size = true ↔ SizeEncodable s.mode size := by
    cases hm : s.mode <;> cases size <;> decide
  unfold launchRefusal LaunchPremises State.modeConsistent
  generalize 2 ^ (ipWidth s.mode).bits = n
  rw [← enc]
  generalize encodable s.mode size = e
  generalize s.vm = vm
  generalize s.mode = mode
  generalize s.cr0PE = pe
  generalize s.stackAddrSize = sas
  cases mode <;> cases pe <;> cases vm <;> simp <;> grind

/-- The read is admitted exactly when no #SS, #AC or #PF answer stands against it. -/
theorem stackFault_eq_none_iff (s : State) (size : Width) : s.stackFault size = none ↔ Admits size s := by
  have page : ∀ (q : Access) (ps : List (Access × ErrorCode)),
      pageFaultCode q ps = none ↔ ∀ p ∈ ps, p.1 ≠ q := by
    intro q ps
    induction ps with
    | nil => simp [pageFaultCode]
    | cons p ps ih => rw [pageFaultCode, List.forall_mem_cons, ← ih]; split <;> simp [*]
  unfold State.stackFault Admits
  rw [← page]
  cases pageFaultCode (s.stackQuery size) s.pageFaults <;> grind

/-- The machine's test for virtual-8086 mode with IOPL < 3 in a launch state. -/
theorem v86Low_iff {s : State} (h : LaunchPremises s) : s.v86Low = true ↔ VirtualLow s := by
  have lt : ∀ x : BitVec 2, (x != 3#2) = true ↔ x < 3#2 := by decide
  unfold State.v86Low VirtualLow
  rw [h.2.1, Bool.and_eq_true, Bool.and_eq_true, lt]

/-- The level used in a launch state: 0 in real-address mode, else CPL. -/
theorem level_eq {s : State} (h : LaunchPremises s) :
    s.level = if s.mode = .real then 0#2 else s.cpl := by
  have := h.1
  unfold State.level
  grind

/-- What a pop needs to answer a value: no LOCK, no guard, an admitted read, a value that passes the test. -/
theorem popOrRaise_eq_ok_iff (size : Width) (pre : List Pfx) (s : State) (t : Quad) :
    popOrRaise size pre s = .ok t ↔
      Pfx.lock ∉ pre ∧ guardFault size s = none ∧ s.stackFault size = none ∧
        valueFault s (s.stackValue size) = none ∧ t = s.stackValue size := by
  unfold popOrRaise State.stackRead
  grind

/-- The four exceptions a pop can end in, in the order of 60_exceptions.md R98. -/
theorem popOrRaise_eq_error_iff (size : Width) (pre : List Pfx) (s : State) (f : Fault) :
    popOrRaise size pre s = .error f ↔
      (Pfx.lock ∈ pre ∧ f = .ud) ∨
      (Pfx.lock ∉ pre ∧ guardFault size s = some f) ∨
      (Pfx.lock ∉ pre ∧ guardFault size s = none ∧ s.stackFault size = some f) ∨
      (Pfx.lock ∉ pre ∧ guardFault size s = none ∧ s.stackFault size = none ∧
        valueFault s (s.stackValue size) = some f) := by
  unfold popOrRaise State.stackRead
  grind

/-- What one execution answers in a state that is ready for it. -/
theorem exec_of_ready {i : Instr} {s : State} (h : Ready i s) :
    exec i s = match popOrRaise i.size i.prefixes s with
      | .error f => .fault f
      | .ok t => .next (s.commit (newFlags i.size s t) (s.popSp i.size)
          (s.ip + BitVec.ofNat 64 (i.prefixes.length + 1))) := by
  have hn : launchRefusal i.size (i.prefixes.length + 1) s = none := (launchRefusal_eq_none_iff _ _ _).2 h
  rw [exec_eq_popFlags, popFlags, hn]
  rfl

/-- An execution answers a next state or a fault only in a state that is ready for it. -/
theorem ready_of_exec {i : Instr} {s : State} (h : ∀ r, exec i s ≠ .refused r) : Ready i s := by
  refine (launchRefusal_eq_none_iff i.size (i.prefixes.length + 1) s).1 ?_
  cases hr : launchRefusal i.size (i.prefixes.length + 1) s with
  | none => rfl
  | some r => exact absurd (by rw [exec_eq_popFlags, popFlags, hr]) (h r)

/-- When an execution completes, and the state it leaves. -/
theorem exec_eq_next_iff (i : Instr) (s t : State) :
    exec i s = .next t ↔
      Ready i s ∧ Pfx.lock ∉ i.prefixes ∧ guardFault i.size s = none ∧ Admits i.size s ∧
        valueFault s (s.stackValue i.size) = none ∧
        t = s.commit (newFlags i.size s (s.stackValue i.size)) (s.popSp i.size)
          (s.ip + BitVec.ofNat 64 (i.prefixes.length + 1)) := by
  rw [← stackFault_eq_none_iff]
  constructor
  · intro h
    have hr : Ready i s := ready_of_exec (by simp [h])
    rw [exec_of_ready hr] at h
    cases hp : popOrRaise i.size i.prefixes s with
    | error f => simp [hp] at h
    | ok v =>
      obtain ⟨h1, h2, h3, h4, rfl⟩ := (popOrRaise_eq_ok_iff _ _ _ _).1 hp
      rw [hp] at h
      exact ⟨hr, h1, h2, h3, h4, by simpa using h.symm⟩
  · rintro ⟨hr, h1, h2, h3, h4, rfl⟩
    rw [exec_of_ready hr, (popOrRaise_eq_ok_iff _ _ _ _).2 ⟨h1, h2, h3, h4, rfl⟩]

/-- When an execution raises, and what. -/
theorem exec_eq_fault_iff (i : Instr) (s : State) (f : Fault) :
    exec i s = .fault f ↔ Ready i s ∧ popOrRaise i.size i.prefixes s = .error f := by
  constructor
  · intro h
    have hr : Ready i s := ready_of_exec (by simp [h])
    rw [exec_of_ready hr] at h
    cases hp : popOrRaise i.size i.prefixes s with
    | error g => rw [hp] at h; exact ⟨hr, by simpa using h⟩
    | ok v => simp [hp] at h
  · rintro ⟨hr, hp⟩
    rw [exec_of_ready hr, hp]

/-- The guard raises exactly in virtual-8086 mode with IOPL < 3, for the 32-bit size or without VME. -/
theorem guardFault_eq (size : Width) (s : State) :
    guardFault size s =
      if s.v86Low = true ∧ (size = .w32 ∨ s.cr4VME = false) then some (.gp 0) else none := by
  unfold guardFault
  cases s.v86Low <;> cases s.cr4VME <;> cases size <;> rfl

/-- The value test raises exactly on the VME path, for IF while VIP is set or for TF. -/
theorem valueFault_eq (s : State) (t : Quad) :
    valueFault s t =
      if s.v86Low = true ∧ (s.vip = true ∧ t.getLsbD 9 = true ∨ t.getLsbD 8 = true) then some (.gp 0) else none := by
  unfold valueFault
  cases s.v86Low <;> cases s.vip <;> cases t.getLsbD 9 <;> cases t.getLsbD 8 <;> rfl

/-- The new flags outside virtual-8086 mode with IOPL < 3: the masks of 40_popf.md R66 as numerals. -/
theorem newFlags_of_not_low {i : Instr} {s : State} (h : Ready i s) (hl : ¬ VirtualLow s) (t : Quad) :
    newFlags i.size s t = flagsUnder (tableMask i.size s) s.rflags t := by
  have hv : s.v86Low = false := by
    rw [← Bool.not_eq_true, v86Low_iff h.1]; exact hl
  have mask : ∀ size, writeMask s.cr0PE s.vm s.level s.iopl size = tableMask size s := by
    intro size
    have := h.1.1
    unfold writeMask tableMask priv0
    rw [level_eq h.1]
    generalize s.iopl = io
    generalize s.cpl = c
    generalize s.vm = vm at *
    by_cases hm : s.mode = .real
    · have hpe := this.1 hm
      simp only [hm, hpe]
      cases size <;> simp [mBase, mIf, mIopl, mWide]
    · have hpe : s.cr0PE = true := by
        by_contra hp; exact hm (this.2 (by simpa using hp))
      simp only [hm, hpe]
      by_cases h1 : vm = false ∧ c = 0#2
      · obtain ⟨rfl, rfl⟩ := h1
        cases size <;> simp [mBase, mIf, mIopl, mWide]
      · have hp : (!vm && c == 0#2) = false := by
          cases vm <;> simp_all
        by_cases h2 : c ≤ io <;> cases size <;> simp [mBase, mIf, mWide, h1, h2, hp]
  have used : ∀ size, imageUsed size t &&& tableMask size s = t &&& tableMask size s := by
    intro size
    have cut : ∀ (w : Nat) (m : Quad), m = (m.setWidth w).setWidth 64 →
        (t.setWidth w).setWidth 64 &&& m = t &&& m := by
      intro w m hm
      ext k hk
      have := congrArg (fun x : Quad => x.getLsbD k) hm
      simp only [BitVec.getLsbD_setWidth, hk, decide_true, Bool.true_and] at this
      rw [BitVec.getElem_and, BitVec.getElem_and, ← BitVec.getLsbD_eq_getElem, ← BitVec.getLsbD_eq_getElem,
        ← BitVec.getLsbD_eq_getElem, this, BitVec.getLsbD_setWidth, BitVec.getLsbD_setWidth]
      cases decide (k < w) <;> simp [hk]
    unfold imageUsed tableMask
    cases size <;> dsimp only <;> refine cut _ _ ?_ <;> (repeat' split) <;> first | rfl | contradiction
  unfold newFlags loadFlags mergeUnder clearRf flagsUnder mRf
  rw [hv, mask, used]
  rfl

/-- The new flags on the VME path (40_popf.md R71). -/
theorem newFlags_of_low {i : Instr} {s : State} (h : Ready i s) (hl : VirtualLow s) (t : Quad) :
    newFlags i.size s t = flagsUnderVme s.rflags t := by
  rw [newFlags, (v86Low_iff h.1).2 hl]
  unfold vmeFlags clearRf mergeUnder flagsUnderVme imageUsed mBase mVif mRf
  ext k hk
  simp only [if_true, BitVec.getElem_and, BitVec.getElem_or, BitVec.getElem_not]
  interval_cases k <;> simp

/-- Everything an execution that completes can do: the frame, and the flags under a mask or on the VME path. -/
theorem exec_next_cases {i : Instr} {s t : State} (h : exec i s = .next t) :
    Ready i s ∧ t = { s with rflags := t.rflags, rsp := t.rsp, ip := t.ip } ∧
    ((¬ VirtualLow s ∧ t.rflags = flagsUnder (tableMask i.size s) s.rflags (s.stackValue i.size)) ∨
     (VirtualLow s ∧ i.size = .w16 ∧ s.cr4VME = true ∧
       ¬(s.vip = true ∧ (s.stackValue i.size).getLsbD 9 = true) ∧ (s.stackValue i.size).getLsbD 8 = false ∧
       t.rflags = flagsUnderVme s.rflags (s.stackValue i.size))) := by
  obtain ⟨hr, hl, hg, ha, hv, rfl⟩ := (exec_eq_next_iff _ _ _).1 h
  refine ⟨hr, rfl, ?_⟩
  by_cases hw : VirtualLow s
  · right
    have h1 := (v86Low_iff hr.1).2 hw
    rw [guardFault_eq, h1] at hg
    rw [valueFault_eq, h1] at hv
    have h64 : i.size = .w64 → False := by
      intro h; have := hr.2.1.2 h; have := hw.1; simp_all
    refine ⟨hw, ?_, ?_, ?_, ?_, newFlags_of_low hr hw _⟩
    · cases hs : i.size <;> simp_all
    · simp at hg; exact hg.2
    · simp at hv; simp; grind
    · simp at hv; exact hv.2
  · exact .inl ⟨hw, newFlags_of_not_low hr hw _⟩

/-- Everything an execution that raises can raise, and what each exception needs (60_exceptions.md R90). -/
theorem exec_fault_cases {i : Instr} {s : State} {f : Fault} (h : exec i s = .fault f) :
    Ready i s ∧
    ((f = .ud ∧ Pfx.lock ∈ i.prefixes) ∨
     (f = .gp 0 ∧ VirtualLow s ∧
       (i.size = .w32 ∨ s.cr4VME = false ∨ s.vip = true ∧ (s.stackValue i.size).getLsbD 9 = true ∨
         (s.stackValue i.size).getLsbD 8 = true)) ∨
     (f = ssFault s.mode ∧ s.stackQuery i.size ∈ s.ssFaults) ∨
     (f = .ac 0 ∧ s.alignCheckApplies = true ∧ s.unaligned i.size = true) ∨
     (s.mode ≠ .real ∧ ∃ c, f = .pf c ∧ (s.stackQuery i.size, c) ∈ s.pageFaults)) := by
  obtain ⟨hr, hp⟩ := (exec_eq_fault_iff _ _ _).1 h
  refine ⟨hr, ?_⟩
  have hv := v86Low_iff hr.1
  rw [popOrRaise_eq_error_iff, guardFault_eq, valueFault_eq] at hp
  have sf := @stackFault_cases s i.size f
  clear hr h
  generalize Ready i s = R at *
  generalize VirtualLow s = V at *
  grind

/-- Two states whose launch checks agree and whose pops agree up to `f` give outcomes that agree up to `f`. -/
theorem exec_mapNext {i : Instr} {s s' : State} {f : State → State}
    (h1 : launchRefusal i.size (i.prefixes.length + 1) s' = launchRefusal i.size (i.prefixes.length + 1) s)
    (h2 : Ready i s →
      (∃ e, popOrRaise i.size i.prefixes s = .error e ∧ popOrRaise i.size i.prefixes s' = .error e) ∨
      ∃ t t', popOrRaise i.size i.prefixes s = .ok t ∧ popOrRaise i.size i.prefixes s' = .ok t' ∧
        s'.commit (newFlags i.size s' t') (s'.popSp i.size) (s'.ip + BitVec.ofNat 64 (i.prefixes.length + 1)) =
          f (s.commit (newFlags i.size s t) (s.popSp i.size) (s.ip + BitVec.ofNat 64 (i.prefixes.length + 1)))) :
    exec i s' = mapNext f (exec i s) := by
  rw [exec_eq_popFlags, exec_eq_popFlags, popFlags, popFlags, h1]
  cases hl : launchRefusal i.size (i.prefixes.length + 1) s with
  | some r => rfl
  | none =>
    rcases h2 ((launchRefusal_eq_none_iff _ _ _).1 hl) with ⟨e, h, h'⟩ | ⟨t, t', h, h', hc⟩
    · simp only [h, h']; rfl
    · simp only [h, h']
      exact congrArg Host.Outcome.next hc

/-- A step that completes is the execution of some instruction. -/
theorem exec_of_step {s t : State} (h : step s = .next t) : ∃ i, exec i s = .next t := by
  unfold step at h
  split at h
  · exact ⟨_, h⟩
  · cases h

end Sys2Proof.Machine
end

