-- ==== Sys2Proof/Tests/Slice0.lean ====
section
/-! SUPPORT. Tests and witnesses. Expected results are the vectors of 95_test_vectors.md (named by their ids) or
30_encoding.md's tables; none was taken from the model. -/

namespace Sys2Proof.Tests

open Sys2Proof Sys2Proof.Machine

/-! ## Decoding: words written out bit by bit (30_encoding.md R50, vectors DEC1 to DEC18) -/

/-- The instruction decoded, if any. -/
def decoded (m : Mode) (d : DefaultSize) (bs : List Byte) : Option Instr :=
  match decode ⟨m, d⟩ bs with
  | .ok (i, _) => some i
  | .error _ => none

/-- The name of the refusal, if any. -/
def decodeError (m : Mode) (bs : List Byte) : Option DecodeError :=
  match decode ⟨m, .d32⟩ bs with
  | .ok _ => none
  | .error e => some e

theorem test_decode_popf :
    decoded .real .d16 [0b10011101#8] = some (.popf []) ∧
    decoded .v86 .d32 [0b10011101#8] = some (.popf []) ∧
    decoded .prot .d32 [0b01100110#8, 0b10011101#8] = some (.popf [.opSize]) ∧
    decoded .compat .d16 [0b10011101#8] = some (.popf []) ∧
    decoded .long64 .d32 [0b01100110#8, 0b10011101#8] = some (.popf [.opSize]) := by decide

theorem test_decode_popfd :
    decoded .real .d16 [0b01100110#8, 0b01100110#8, 0b10011101#8] = some (.popfd [.opSize, .opSize]) ∧
    decoded .v86 .d16 [0b01100110#8, 0b10011101#8] = some (.popfd [.opSize]) ∧
    decoded .prot .d32 [0b10011101#8] = some (.popfd []) ∧
    decoded .prot .d16 [0b01100110#8, 0b10011101#8] = some (.popfd [.opSize]) ∧
    decoded .compat .d32 [0b11110000#8, 0b10011101#8] = some (.popfd [.lock]) := by decide

theorem test_decode_popfq :
    decoded .long64 .d32 [0b10011101#8] = some (.popfq []) ∧
    decoded .long64 .d16 [0b11110000#8, 0b10011101#8] = some (.popfq [.lock]) := by decide

theorem test_decode_refusals :
    decodeError .long64 [0x48#8, 0x9D#8] = some (.rex 0x48#8) ∧
    decodeError .prot [0x48#8, 0x9D#8] = some (.opcodeNotInScope 0x48#8) ∧
    decodeError .prot [0xF3#8, 0x9D#8] = some (.repeatPrefix 0xF3#8) ∧
    decodeError .real [0xF2#8, 0x9D#8] = some (.repeatPrefix 0xF2#8) ∧
    decodeError .prot [0x67#8, 0x9D#8] = some .addressSize ∧
    decodeError .prot [0x2E#8, 0x9D#8] = some (.segmentOverride 0x2E#8) ∧
    decodeError .v86 [0x66#8, 0x36#8, 0x9D#8] = some (.segmentOverride 0x36#8) ∧
    decodeError .prot [0xC5#8, 0x9D#8] = some (.vex 0xC5#8) ∧
    decodeError .prot [0x9C#8] = some (.opcodeNotInScope 0x9C#8) ∧
    decodeError .prot [0x90#8] = some (.opcodeNotInScope 0x90#8) ∧
    decodeError .prot [0xF0#8, 0xF0#8, 0x9D#8] = some .repeatedLock ∧
    decodeError .prot [0x66#8] = some .truncated := by decide

/-- The table word 9D in the context after reset (real-address mode, size 16). -/
theorem test_decode_table_word : decodeTableWord 8 0x9D = some (.popf []) := by decide

/-- The ill-formed terms: LOCK twice; a size that the context and the prefixes do not select. -/
theorem test_ill_formed :
    prefixesAdmitted (.popf [.lock, .lock]) = false ∧ WellFormed ⟨.real, .d16⟩ (.popf [.lock, .lock]) = false ∧
    sizeSelected ⟨.real, .d16⟩ (.popfd []) = false ∧ WellFormed ⟨.real, .d16⟩ (.popfd []) = false ∧
    WellFormed ⟨.long64, .d32⟩ (.popfd []) = false ∧ WellFormed ⟨.prot, .d32⟩ (.popfq []) = false := by decide

theorem test_well_formed :
    WellFormed ⟨.real, .d16⟩ (.popfd [.opSize, .lock, .opSize]) = true ∧
    WellFormed ⟨.prot, .d32⟩ (.popf [.opSize]) = true ∧ WellFormed ⟨.long64, .d16⟩ (.popfq [.lock]) = true := by decide

/-! ## One step -/

/-- A launch state: ip 0x100 in each mode, code at it, a stack image at `sp`, every access admitted. -/
def launch (m : Mode) (cpl : BitVec 2) (flags sp : Quad) (code stack : List Byte) : State :=
  { State.reset with
    mode := m, cr0PE := m != .real, cpl := cpl, rflags := flags, rsp := sp, ip := 0x100#64, codeBase := 0#64
    defaultSize := .d32
    stackAddrSize := if m = .long64 then .w64 else if m = .prot ∨ m = .compat then .w32 else .w16
    ssFaults := []
    mem := Memory.store (Memory.store [] 0x100#64 code) sp stack }

/-- RFLAGS, the stack pointer and ip after an execution that completes. -/
def written (o : Host.Outcome State Fault Refusal) : Option (Quad × Quad × Quad) :=
  match o with
  | .next t => some (t.rflags, t.rsp, t.ip)
  | .fault _ => none
  | .refused _ => none

/-- The exception of an execution that raises. -/
def faultOf (o : Host.Outcome State Fault Refusal) : Option Fault :=
  match o with
  | .next _ => none
  | .fault f => some f
  | .refused _ => none

/-- V6: protected mode, CPL 3, IOPL 0, 16 bits: IF and IOPL stay 0. -/
theorem test_popf_v6 :
    written (step (launch .prot 3#2 0x2#64 0x1000#64 [0x66#8, 0x9D#8] [0xFF#8, 0xFF#8])) =
      some (0x4DD7#64, 0x1002#64, 0x102#64) := by decide

/-- V66: the VME path: the popped IF goes to VIF. -/
theorem test_popf_v66 :
    written (step { launch .v86 3#2 0x20002#64 0x1000#64 [0x9D#8] [0xFF#8, 0xFE#8] with cr4VME := true }) =
      some (0xA4CD7#64, 0x1002#64, 0x101#64) := by decide

/-- V34: an attempt to clear IF and raise IOPL at CPL 3 is silently ignored. -/
theorem test_popfd_v34 :
    written (step (launch .prot 3#2 0x202#64 0xA000#64 [0x9D#8] [0x03#8, 0x30#8, 0x00#8, 0x00#8])) =
      some (0x203#64, 0xA004#64, 0x101#64) := by decide

/-- X12: the alignment check uses the old AC. -/
theorem test_popfd_x12 :
    written (step { launch .prot 3#2 0x202#64 0x1001#64 [0x9D#8] [0x02#8, 0x00#8, 0x04#8, 0x00#8] with cr0AM := true }) =
      some (0x40202#64, 0x1005#64, 0x101#64) := by decide

/-- V46: RFLAGS[63:32] is kept. -/
theorem test_popfq_v46 :
    written (exec (.popfq []) (launch .long64 0#2 0xDEADBEEF00000002#64 0x7000#64 []
      [0xFF#8, 0xFF#8, 0xFF#8, 0xFF#8, 0xFF#8, 0xFF#8, 0xFF#8, 0xFF#8])) =
      some (0xDEADBEEF00247FD7#64, 0x7008#64, 0x101#64) := by decide

/-- V42: IF is kept at CPL 3 above IOPL. -/
theorem test_popfq_v42 :
    written (exec (.popfq []) (launch .long64 3#2 0x202#64 0x7000#64 []
      [0xFF#8, 0xFF#8, 0xFF#8, 0xFF#8, 0xFF#8, 0xFF#8, 0xFF#8, 0xFF#8])) =
      some (0x244FD7#64, 0x7008#64, 0x101#64) := by decide

/-- S3: SP wraps at 16 bits and leaves the bits above. -/
theorem test_sp_s3 : ({ State.reset with rsp := 0x1234FFFE#64 } : State).popSp .w16 = 0x12340000#64 := by decide

/-- S9: the offset of the second byte wraps. -/
theorem test_offset_s9 : ({ State.reset with rsp := 0xFFFF#64 } : State).stackOffset 1 = 0#64 := by decide

/-- X2, X4, X6 and X15: the order of the exceptions, and #SS without a code in real-address mode. -/
theorem test_exception_order :
    faultOf (step (launch .v86 3#2 0x20002#64 0x1000#64 [0xF0#8, 0x9D#8] [])) = some .ud ∧
    faultOf (step { launch .v86 3#2 0x20002#64 0x1000#64 [0x9D#8] [] with ssFaults := [⟨0x1000#64, .w16⟩] }) =
      some (.gp 0) ∧
    faultOf (step { launch .v86 3#2 0x20002#64 0x1000#64 [0x9D#8] [0x02#8, 0x01#8] with
      cr4VME := true, ssFaults := [⟨0x1000#64, .w16⟩] }) = some (.ss (some 0)) ∧
    faultOf (step { launch .real 0#2 0x2#64 0x1000#64 [0x9D#8] [] with ssFaults := [⟨0x1000#64, .w16⟩] }) =
      some (.ss none) := by decide

/-- The table word placed at reset runs as the first instruction: POPF, one byte long, from a stack of zeros. -/
theorem test_first_step : written (step (State.reset.withFetchWord 8 0x9D)) = some (0x2#64, 0x2#64, 0xFFF1#64) := by
  decide

/-! ## Witnesses: for each statement with hypotheses, states and operands that meet them all -/

theorem witness_DecodeOfEncodeIsTheInstruction :
    WellFormed ⟨.prot, .d32⟩ (.popf [.lock, .opSize, .opSize]) = true ∧
    WellFormed ⟨.long64, .d16⟩ (.popfq []) = true := by decide

theorem witness_AcceptedBytesAreAnEncoding :
    decode ⟨.prot, .d32⟩ [0xF0#8, 0x66#8, 0x9D#8, 0x9D#8] = .ok (.popf [.lock, .opSize], [0x9D#8]) := rfl

theorem witness_UnencodableFormsAreNeverDecodedAndRefused :
    decode ⟨.long64, .d32⟩ [0x9D#8] = .ok (.popfq [], []) ∧ decode ⟨.prot, .d32⟩ [0x9D#8] = .ok (.popfd [], []) ∧
    (launch .long64 3#2 0x2#64 0#64 [] []).mode = .long64 ∧ State.reset.mode ≠ .long64 := ⟨rfl, rfl, rfl, by decide⟩

/-- Bytes at ip, for lists given one by one. -/
theorem bytesAtIp_iff (s : State) (bs : List Byte) :
    BytesAtIp s bs ↔
      (List.range bs.length).map (fun k => s.byteAt (s.codeBase + s.ip + BitVec.ofNat 64 k)) = bs := by
  constructor
  · intro h
    exact List.ext_getElem (by simp) fun k h1 h2 => by simpa using h k h2
  · intro h k hk
    have := congrArg (fun l : List Byte => l[k]?) h
    simpa [hk] using this

theorem witness_OtherBytesAreRefusedNotFaulted :
    BytesAtIp State.reset ([].map Pfx.byte ++ [0#8]) ∧
    BytesAtIp (launch .prot 3#2 0x2#64 0x1000#64 [0x66#8, 0xF0#8, 0x90#8] [])
      ([.opSize, .lock].map Pfx.byte ++ [0x90#8]) := by
  rw [bytesAtIp_iff, bytesAtIp_iff]; decide

/-- The last byte below the top of a 16-bit ip, twice: a one-byte form ends there, a two-byte form passes it. -/
def atTop (code : List Byte) : State :=
  { launch .real 0#2 0x2#64 0x1000#64 [] [] with ip := 0xFFFF#64, mem := Memory.store [] 0xFFFF#64 code }

theorem witness_StepExecutesTheInstructionAtIp :
    (WellFormed (atTop [0x9D#8]).codeContext (.popf []) = true ∧ BytesAtIp (atTop [0x9D#8]) (encode (.popf [])) ∧
      (atTop [0x9D#8]).ip.toNat + (Instr.popf []).length = 2 ^ (ipWidth (atTop [0x9D#8]).mode).bits) ∧
    (WellFormed (atTop [0x66#8, 0x9D#8]).codeContext (.popfd [.opSize]) = true ∧
      BytesAtIp (atTop [0x66#8, 0x9D#8]) (encode (.popfd [.opSize])) ∧
      2 ^ (ipWidth (atTop [0x66#8, 0x9D#8]).mode).bits + 1 =
        (atTop [0x66#8, 0x9D#8]).ip.toNat + (Instr.popfd [.opSize]).length) := by
  rw [bytesAtIp_iff, bytesAtIp_iff]; decide

theorem witness_RefusedExactlyWhenNotReady :
    Ready (.popf []) State.reset ∧ ¬ Ready (.popfq []) State.reset ∧
    ¬ Ready (.popf []) { State.reset with rflags := 0x20002#64 } := by refine ⟨?_, ?_, ?_⟩ <;> decide

theorem witness_PopfCompletes :
    ∃ s, Ready (.popf [.opSize]) s ∧ Pfx.lock ∉ [Pfx.opSize] ∧ Admits .w16 s ∧ ¬ VirtualLow s :=
  ⟨launch .long64 3#2 0x2#64 0x7008#64 [] [], by decide⟩

theorem witness_PopfdCompletes :
    ∃ s, Ready (.popfd []) s ∧ Pfx.lock ∉ ([] : List Pfx) ∧ Admits .w32 s ∧ ¬ VirtualLow s :=
  ⟨launch .v86 3#2 0x23002#64 0x1000#64 [] [], by decide⟩

theorem witness_PopfqCompletes : ∃ s, Ready (.popfq []) s ∧ Pfx.lock ∉ ([] : List Pfx) ∧ Admits .w64 s :=
  ⟨launch .long64 3#2 0x2#64 0x7000#64 [] [], by decide⟩

/-- A virtual-8086 state with IOPL 0 and VME, with VIP or not, and a word on the stack. -/
def vme (vip : Bool) (lo hi : Byte) : State :=
  { launch .v86 3#2 (if vip then 0x120002#64 else 0x20002#64) 0x1000#64 [0x9D#8] [lo, hi] with cr4VME := true }

theorem witness_PopfCompletesOnTheVmePath :
    let s := vme true 0x43#8 0#8
    Ready (.popf []) s ∧ Pfx.lock ∉ ([] : List Pfx) ∧ Admits .w16 s ∧ VirtualLow s ∧ s.cr4VME = true ∧
      ¬(s.vip = true ∧ (s.stackByte 1).getLsbD 1 = true) ∧ (s.stackByte 1).getLsbD 0 = false := by decide

/-- One launch state for each clause: the guard's row, notes 2 and 3, a row that completes. -/
theorem witness_FlagsFollowTable415 :
    (LaunchPremises (vme true 2#8 2#8) ∧ SizeEncodable (vme true 2#8 2#8).mode .w16 ∧
      IpFits (.popf []) (vme true 2#8 2#8) ∧ Admits .w16 (vme true 2#8 2#8) ∧
      (∃ r ∈ table415, r.applies .w16 (vme true 2#8 2#8) = true ∧ 2 ∈ r.notes) ∧ (vme true 2#8 2#8).vip = true ∧
      ((vme true 2#8 2#8).stackValue .w16).getLsbD 9 = true) ∧
    (∃ r ∈ table415, r.applies .w16 (vme false 2#8 1#8) = true ∧ 3 ∈ r.notes) ∧
    ((vme false 2#8 1#8).stackValue .w16).getLsbD 8 = true ∧
    (∃ r ∈ table415, r.applies .w32 (vme false 2#8 1#8) = true ∧ 1 ∈ r.notes) ∧
    (written (exec (.popf []) (vme false 0x43#8 0#8))).isSome = true := by decide

/-- One launch state for each effect of a branch: the guard, TF popped (V65), IF popped with VIP (V70), IF popped without
it (V72), and the two kinds of pop. -/
theorem witness_OperationAgreesButForItsShortfalls :
    (LaunchPremises (vme true 2#8 2#8) ∧ SizeEncodable .v86 .w16 ∧ SizeEncodable .v86 .w32 ∧
      IpFits (.popf []) (vme true 2#8 2#8) ∧ Admits .w16 (vme true 2#8 2#8)) ∧
    operation true true true true 3#2 0#2 .w32 0#64 = .gp0 ∧
    operation true true true false 3#2 0#2 .w16 0x102#64 = .gp0AfterPop ∧
    operation true true true true 3#2 0#2 .w16 ((vme true 2#8 2#8).stackValue .w16) = .gp0AfterPop ∧
    operation true true true false 3#2 0#2 .w16 0x202#64 = .vmeBranch 0x4DD5#64 ∧
    operation false true false true 3#2 0#2 .w16 0x302#64 = .popped 0x4FD5#64 false ∧
    operation false true false true 3#2 0#2 .w32 0x302#64 = .popped 0x244DD5#64 true := by decide

/-- Forms outside the VME path with VIP set: the guard's two, and a state that is not in virtual-8086 mode. -/
theorem witness_VipIsNeverWrittenAndVifOnlyOnTheVmePath :
    (VirtualLow (vme true 2#8 2#8) ∧ (Instr.popfd []).size ≠ .w16 ∧ (vme true 2#8 2#8).vip = true) ∧
    (VirtualLow { vme true 2#8 2#8 with cr4VME := false } ∧ ({ vme true 2#8 2#8 with cr4VME := false } : State).cr4VME ≠ true) ∧
    ¬ VirtualLow (launch .prot 3#2 0x100002#64 0x1000#64 [] []) := by decide

/-- One execution that completes, outside the VME path and on it, for the statements about a completed execution:
RfIsClearedByEveryCompletion, VmIsNeverWritten, VipIsNeverWrittenAndVifOnlyOnTheVmePath (its first clause), OnlyPrivilegeChangesIoplAndIf,
FrameOfACompletedExecution, NoByteOfMemoryIsWritten, StackPointerAdvancesByTheSizePopped, IpAdvancesByTheLength. -/
theorem witness_completed_execution :
    (∃ s t, ¬ VirtualLow s ∧ s.rflags.getLsbD 16 = true ∧ exec (.popfd []) s = .next t) ∧
    (∃ s t, VirtualLow s ∧ exec (.popf []) s = .next t) :=
  ⟨⟨launch .prot 0#2 0x13002#64 0x1000#64 [] [0#8, 0#8, 0#8, 0#8], _, by decide, by decide, rfl⟩,
    ⟨vme true 0x43#8 0#8, _, by decide, rfl⟩⟩

/-- A completed execution that lowers IOPL from 3 and clears IF (vector V33). -/
theorem witness_OnlyPrivilegeChangesIoplAndIf :
    ∃ t, exec (.popfd []) (launch .prot 0#2 0x3202#64 0x1000#64 [] [2#8, 0#8, 0#8, 0#8]) = .next t ∧
      t.iopl ≠ 3#2 ∧ t.rflags.getLsbD 9 ≠ true :=
  ⟨_, rfl, by decide, by decide⟩

/-- Both ends of the reserved positions, and a completed execution. -/
theorem witness_ReservedBitsAreNeverWritten :
    ReservedBit 1 ∧ ReservedBit 3 ∧ ReservedBit 5 ∧ ReservedBit 15 ∧ ReservedBit 22 ∧ ReservedBit 63 ∧
    ∃ t, exec (.popfd []) (launch .prot 0#2 0x2#64 0x1000#64 [] [0xFF#8, 0xFF#8, 0xFF#8, 0xFF#8]) = .next t :=
  ⟨by decide, by decide, by decide, by decide, by decide, by decide, _, rfl⟩

theorem witness_InsufficientPrivilegeIsSilent :
    let s := launch .prot 3#2 0x202#64 0xA000#64 [] [3#8, 0x30#8]
    s.mode ≠ .v86 ∧ Ready (.popfd []) s ∧ Pfx.lock ∉ (Instr.popfd []).prefixes ∧ Admits (Instr.popfd []).size s ∧
      (Instr.popfd []).size ≠ .w16 ∧ ¬ s.level ≤ s.iopl := by decide

theorem witness_PviHasNoEffect :
    ∃ t, (launch .prot 3#2 0x2#64 0x1000#64 [] []).mode = .prot ∧ (launch .prot 3#2 0x2#64 0x1000#64 [] []).cpl = 3#2 ∧
      (launch .prot 3#2 0x2#64 0x1000#64 [] []).iopl < 3#2 ∧
      exec (.popf []) (launch .prot 3#2 0x2#64 0x1000#64 [] []) = .next t :=
  ⟨_, rfl, rfl, by decide, rfl⟩

/-- The frame's premise on a bit holds on either path: IF in protected mode at CPL 3, and on the VME path. -/
theorem witness_FrameOfACompletedExecution :
    (¬ VirtualLow (launch .prot 3#2 0x2#64 0x1000#64 [] []) ∧
      (tableMask .w16 (launch .prot 3#2 0x2#64 0x1000#64 [] [])).getLsbD 9 = false) ∧
    VirtualLow (vme true 0x43#8 0#8) ∧ (0x84DD5#64).getLsbD 9 = false := by decide

theorem witness_NoByteOfMemoryIsWritten : ∃ t, step (State.reset.withFetchWord 8 0x9D) = .next t := ⟨_, rfl⟩

/-- The first and the last bit of a quadword, and the first position past it. -/
theorem witness_ValuePoppedIsLittleEndianAtSp : 0 < Width.w64.bits ∧ 63 < Width.w64.bits ∧ Width.w64.bits ≤ 64 := by
  decide

/-- Two stacks that differ in a reserved bit, outside the VME path and on it. -/
theorem witness_BitsOutsideTheMaskAreIgnored :
    ((launch .prot 3#2 0x2#64 0x1000#64 [] [2#8]).stackValue .w16 ^^^
        (launch .prot 3#2 0x2#64 0x1000#64 [] []).stackValue .w16) &&&
      tableMask .w16 (launch .prot 3#2 0x2#64 0x1000#64 [] []) = 0#64 ∧
    VirtualLow (vme false 2#8 0#8) ∧
    ((vme false 2#8 0#8).stackValue .w16 ^^^ (vme false 0#8 0#8).stackValue .w16) &&& 0x4FD5#64 = 0#64 ∧
    (vme false 2#8 0#8).stackValue .w16 ≠ (vme false 0#8 0#8).stackValue .w16 := by decide

theorem witness_RealModeIgnoresTheCplField : State.reset.mode = .real := rfl

theorem witness_VmeMattersOnlyInVirtualModeBelowIopl3 :
    (¬ VirtualLow (launch .v86 3#2 0x23002#64 0x1000#64 [] []) ∧
      (launch .v86 3#2 0x23002#64 0x1000#64 [] []).hasVME = true) ∧
    ¬ VirtualLow (launch .prot 3#2 0x2#64 0x1000#64 [] []) := by decide

/-- V35: the value held, 0x10246, is popped. -/
theorem witness_PoppingTheHeldValueChangesOnlyRfAndOnTheVmePathVif :
    ∃ t, exec (.popfd []) (launch .prot 3#2 0x10246#64 0x1000#64 [] [0x46#8, 2#8, 1#8, 0#8]) = .next t ∧
      ∀ k < Width.w32.bits,
        ((launch .prot 3#2 0x10246#64 0x1000#64 [] [0x46#8, 2#8, 1#8, 0#8]).stackValue .w32).getLsbD k =
          (0x10246#64).getLsbD k :=
  ⟨_, rfl, by decide⟩

theorem witness_LockRaisesUdBeforeAnyOtherTest :
    Ready (.popf [.lock]) (vme true 2#8 2#8) ∧ Pfx.lock ∈ (Instr.popf [.lock]).prefixes ∧
    Ready (.popf []) (vme true 2#8 2#8) ∧ Pfx.lock ∉ (Instr.popf []).prefixes := by decide

/-- Each of the three clauses: IOPL 2 with the 32-bit size, IOPL 3, IOPL 2 with VME and a value that passes. In the
third IF is popped without VIP, or VIP is set without it. -/
theorem witness_VirtualModeGuardRaisesGpBeforeTheStackRead :
    (Ready (.popfd []) (launch .v86 3#2 0x22002#64 0x1000#64 [] []) ∧ Pfx.lock ∉ (Instr.popfd []).prefixes ∧
      (launch .v86 3#2 0x22002#64 0x1000#64 [] []).mode = .v86 ∧
      (launch .v86 3#2 0x22002#64 0x1000#64 [] []).iopl < 3#2) ∧
    (Ready (.popfd []) (launch .v86 3#2 0x23002#64 0x1000#64 [] []) ∧
      (launch .v86 3#2 0x23002#64 0x1000#64 [] []).iopl = 3#2 ∧
      Admits .w32 (launch .v86 3#2 0x23002#64 0x1000#64 [] [])) ∧
    (Ready (.popf []) { vme false 2#8 0#8 with rflags := 0x22002#64 } ∧
      ({ vme false 2#8 0#8 with rflags := 0x22002#64 } : State).iopl < 3#2 ∧
      Admits .w16 { vme false 2#8 0#8 with rflags := 0x22002#64 } ∧
      ({ vme false 2#8 0#8 with rflags := 0x22002#64 } : State).cr4VME = true) ∧
    (¬((vme false 2#8 2#8).vip = true ∧ ((vme false 2#8 2#8).stackValue .w16).getLsbD 9 = true) ∧
      ((vme false 2#8 2#8).stackValue .w16).getLsbD 8 = false) ∧
    ¬((vme true 2#8 0#8).vip = true ∧ ((vme true 2#8 0#8).stackValue .w16).getLsbD 9 = true) ∧
    ((vme true 2#8 0#8).stackValue .w16).getLsbD 8 = false := by
  refine ⟨?_, ?_, ?_, ?_, ?_, ?_⟩ <;> decide

/-- TF on the stack (V65), and IF on the stack with VIP (V70). -/
theorem witness_VmePathRaisesGpForTheStackValue :
    (Ready (.popf []) (vme false 2#8 1#8) ∧ Admits .w16 (vme false 2#8 1#8) ∧ VirtualLow (vme false 2#8 1#8) ∧
      (vme false 2#8 1#8).cr4VME = true ∧ ((vme false 2#8 1#8).stackByte 1).getLsbD 0 = true) ∧
    (Ready (.popf []) (vme true 2#8 2#8) ∧ Admits .w16 (vme true 2#8 2#8) ∧ VirtualLow (vme true 2#8 2#8) ∧
      (vme true 2#8 2#8).vip = true ∧ ((vme true 2#8 2#8).stackByte 1).getLsbD 1 = true) := by
  refine ⟨?_, ?_⟩ <;> decide

/-- A stack pointer of 0x1002 in protected mode at CPL 3, with the answers of `StackAccess` given. -/
def queried (ac : Option Bool) (ss : List Access) (pf : List (Access × ErrorCode)) : State :=
  { launch .prot 3#2 0x2#64 0x1002#64 [0x9D#8] [] with alignCheck := ac, ssFaults := ss, pageFaults := pf }

/-- One state for each of the three clauses; the first meets the conditions of the later ones too, the second of the last. -/
theorem witness_StackReadFaultsInOrder :
    (Ready (.popfd []) (queried (some true) [⟨0x1002#64, .w32⟩] [(⟨0x1002#64, .w32⟩, 4)]) ∧
      Pfx.lock ∉ (Instr.popfd []).prefixes ∧
      ¬ VirtualLow (queried (some true) [⟨0x1002#64, .w32⟩] [(⟨0x1002#64, .w32⟩, 4)]) ∧
      (queried (some true) [⟨0x1002#64, .w32⟩] [(⟨0x1002#64, .w32⟩, 4)]).stackQuery .w32 ∈
        (queried (some true) [⟨0x1002#64, .w32⟩] [(⟨0x1002#64, .w32⟩, 4)]).ssFaults) ∧
    (Ready (.popfd []) (queried (some true) [] [(⟨0x1002#64, .w32⟩, 4)]) ∧
      (queried (some true) [] [(⟨0x1002#64, .w32⟩, 4)]).alignCheckApplies = true ∧
      (queried (some true) [] [(⟨0x1002#64, .w32⟩, 4)]).unaligned .w32 = true) ∧
    (Ready (.popfd []) (queried none [] [(⟨0x1002#64, .w32⟩, 4)]) ∧
      ¬((queried none [] [(⟨0x1002#64, .w32⟩, 4)]).alignCheckApplies = true) ∧
      (queried none [] [(⟨0x1002#64, .w32⟩, 4)]).mode ≠ .real ∧
      (queried none [] [(⟨0x1002#64, .w32⟩, 4)]).pageFaults.find?
        (fun p => p.1 == (queried none [] [(⟨0x1002#64, .w32⟩, 4)]).stackQuery .w32) =
          some (⟨0x1002#64, .w32⟩, 4)) := by
  refine ⟨?_, ?_, ?_⟩ <;> decide

/-- X9 and X13: under a fixed `AlignCheckEnabled` and under the default. -/
theorem witness_AlignmentCheckNeedsOldAcAtLevel3 :
    faultOf (exec (.popfd []) (queried (some true) [] [])) = some (.ac 0) ∧
    faultOf (exec (.popfd []) { queried none [] [] with cr0AM := true, rflags := 0x40202#64 }) = some (.ac 0) ∧
    ({ queried none [] [] with cr0AM := true, rflags := 0x40202#64 } : State).alignCheck = none := by decide

/-- Each exception is raised by some execution. -/
theorem witness_ExceptionsFollowTheMatrixOfModes :
    faultOf (exec (.popfd [.lock]) (queried none [] [])) = some .ud ∧
    faultOf (exec (.popfd []) (queried none [⟨0x1002#64, .w32⟩] [])) = some (.ss (some 0)) ∧
    faultOf (exec (.popfd []) (queried none [] [(⟨0x1002#64, .w32⟩, 4)])) = some (.pf 4) ∧
    faultOf (exec (.popfd []) (queried (some true) [] [])) = some (.ac 0) ∧
    faultOf (exec (.popf []) (vme true 2#8 2#8)) = some (.gp 0) := by decide

theorem witness_StepKeepsTheInvariant :
    ∃ s t, Machine.Inv s ∧ step s = .next t :=
  ⟨State.reset.withFetchWord 8 0x9D, _, by unfold Machine.Inv; decide, rfl⟩

end Sys2Proof.Tests
end

/-! ## The bits a completed execution can write

No mask, the VME path included, has a bit of VM, VIP or a reserved position, and RF is cleared: every other position
of RFLAGS keeps what the launch state holds. -/

namespace Sys2Proof.Machine

/-- Every position of RFLAGS that the instruction can write: the flags of the widest mask, RF and VIF. -/
abbrev WritableBit (k : Nat) : Prop := k ∈ [0, 2, 4, 6, 7, 8, 9, 10, 11, 12, 13, 14, 16, 18, 19, 21]

theorem not_writableBit_of_reservedBit {k : Nat} (h : ReservedBit k) : ¬ WritableBit k := by
  simp only [List.mem_cons, List.not_mem_nil, or_false]
  omega

theorem flagsUnder_getLsbD_of_not_mask {m : Quad} {k : Nat} (hm : m.getLsbD k = false) (hk : k ≠ 16) (o t : Quad) :
    (flagsUnder m o t).getLsbD k = o.getLsbD k := by
  rw [flagsUnder_getLsbD, if_neg hk, hm, if_neg Bool.false_ne_true]

theorem rflags_getLsbD_of_not_writableBit {i : Instr} {s t : State} {k : Nat} (h : exec i s = .next t)
    (hk : ¬ WritableBit k) : t.rflags.getLsbD k = s.rflags.getLsbD k := by
  simp only [List.mem_cons, List.not_mem_nil, or_false, not_or] at hk
  obtain ⟨-, -, ⟨-, hf⟩ | ⟨-, -, -, -, -, hf⟩⟩ := exec_next_cases h
  · rw [hf]
    exact flagsUnder_getLsbD_of_not_mask (tableMask_getLsbD_of_not_mem _ _ _ (by simp [hk])) (by simp [hk]) _ _
  · have hm : (0x4DD5#64).getLsbD k = false := base_getLsbD_of_not_mem _ (by simp [hk])
    simp only [hf, flagsUnderVme_getLsbD, hm, hk, if_false, Bool.false_eq_true]

theorem vm_of_exec {i : Instr} {s t : State} (h : exec i s = .next t) : t.vm = s.vm :=
  rflags_getLsbD_of_not_writableBit h (by decide)

theorem vif_of_exec_of_virtualLow {i : Instr} {s t : State} (h : exec i s = .next t) (hl : VirtualLow s) :
    t.rflags.getLsbD 19 = (s.stackValue i.size).getLsbD 9 := by
  obtain ⟨-, -, ⟨hn, -⟩ | ⟨-, -, -, -, -, hf⟩⟩ := exec_next_cases h
  · exact absurd hl hn
  · rw [hf, flagsUnderVme_getLsbD, if_neg (by decide), if_pos rfl]

theorem vif_of_exec_of_not_virtualLow {i : Instr} {s t : State} (h : exec i s = .next t) (hl : ¬ VirtualLow s) :
    t.rflags.getLsbD 19 = s.rflags.getLsbD 19 := by
  obtain ⟨-, -, ⟨-, hf⟩ | ⟨hw, -⟩⟩ := exec_next_cases h
  · rw [hf]
    exact flagsUnder_getLsbD_of_not_mask (tableMask_getLsbD_of_not_mem _ _ _ (by decide)) (by decide) _ _
  · exact absurd hw hl

/-- The mode is virtual-8086 exactly when VM is 1, in a launch state with CR0.PE = 1. -/
theorem mode_eq_v86_iff_vm {s : State} (h : LaunchPremises s) (hpe : s.cr0PE = true) :
    s.mode = .v86 ↔ s.vm = true := by
  obtain ⟨-, hv86, -⟩ := h
  rw [hv86, and_iff_right hpe]

/-! ## A state with the other VIP

The only place that reads VIP is the value test, and that test is reached only on the VME path: elsewhere in
virtual-8086 mode with IOPL < 3 the guard has raised before it. -/

/-- The state with RFLAGS.VIP inverted. -/
def State.flipVip (s : State) : State := { s with rflags := s.rflags ^^^ 0x100000#64 }

/-- The VME path: where VIP is read (10_state.md R15, 40_popf.md R71). -/
abbrev OnVmePath (size : Width) (s : State) : Prop := VirtualLow s ∧ s.cr4VME = true ∧ size = .w16

section FlipVip
variable (s : State)

theorem flipVip_rflags_getLsbD {k : Nat} (hk : k ≠ 20) : s.flipVip.rflags.getLsbD k = s.rflags.getLsbD k := by
  have hb : (0x100000#64).getLsbD k = false := by
    rw [show (0x100000#64) = BitVec.twoPow 64 20 from rfl, twoPow_getLsbD _ _ (by decide), decide_eq_false hk]
  rw [State.flipVip, BitVec.getLsbD_xor, hb, Bool.xor_false]

@[simp] theorem flipVip_vm : s.flipVip.vm = s.vm := flipVip_rflags_getLsbD s (by decide)
@[simp] theorem flipVip_ac : s.flipVip.ac = s.ac := flipVip_rflags_getLsbD s (by decide)
@[simp] theorem flipVip_iopl : s.flipVip.iopl = s.iopl :=
  ioplOf_congr (flipVip_rflags_getLsbD s (by decide)) (flipVip_rflags_getLsbD s (by decide))

@[simp] theorem flipVip_v86Low : s.flipVip.v86Low = s.v86Low := by
  simp only [State.v86Low, flipVip_vm, flipVip_iopl]; rfl

@[simp] theorem flipVip_launchRefusal (size : Width) (len : Nat) :
    launchRefusal size len s.flipVip = launchRefusal size len s := by
  simp only [launchRefusal, State.modeConsistent, flipVip_vm]; rfl

@[simp] theorem flipVip_guardFault (size : Width) : guardFault size s.flipVip = guardFault size s := by
  simp only [guardFault, flipVip_v86Low]; rfl

@[simp] theorem flipVip_stackFault (size : Width) : s.flipVip.stackFault size = s.stackFault size := by
  simp only [State.stackFault, State.alignCheckApplies, State.alignCheckEnabled, flipVip_ac]; rfl

@[simp] theorem flipVip_stackRead (size : Width) : s.flipVip.stackRead size = s.stackRead size := by
  simp only [State.stackRead, flipVip_stackFault]; rfl

@[simp] theorem flipVip_tableMask (size : Width) : tableMask size s.flipVip = tableMask size s := by
  simp only [tableMask, flipVip_vm, flipVip_iopl]; rfl

end FlipVip

/-- A mask without bit 20 keeps VIP, so inverting VIP before or after is the same. -/
theorem flagsUnder_xor_vip {m : Quad} (hm : m.getLsbD 20 = false) (o t : Quad) :
    flagsUnder m (o ^^^ 0x100000#64) t = flagsUnder m o t ^^^ 0x100000#64 := by
  apply BitVec.eq_of_getLsbD_eq
  intro k hk
  have hb : (0x100000#64).getLsbD k = decide (k = 20) := twoPow_getLsbD 20 k (by decide)
  simp only [BitVec.getLsbD_xor, flagsUnder_getLsbD, hb]
  by_cases h20 : k = 20
  · simp only [h20, hm, decide_true, Nat.reduceEqDiff, if_false, Bool.false_eq_true]
  · simp only [h20, decide_false, Bool.xor_false]

/-- Off the VME path the guard raises, or the state is outside virtual-8086 mode with IOPL < 3. -/
theorem v86Low_eq_false_of_guardFault_eq_none {i : Instr} {s : State} (hr : Ready i s)
    (hp : ¬ OnVmePath i.size s) (hg : guardFault i.size s = none) : s.v86Low = false := by
  by_contra hv
  rw [Bool.not_eq_false] at hv
  have hl : VirtualLow s := (v86Low_iff hr.1).1 hv
  rw [guardFault_eq, hv] at hg
  cases hs : i.size with
  | w16 => exact hp ⟨hl, by simpa [hs] using hg, hs⟩
  | w32 => simp [hs] at hg
  | w64 => exact absurd (hl.1.symm.trans (hr.2.1.2 hs)) (by decide)

/-- Off the VME path a pop answers the same whatever VIP holds. -/
theorem popOrRaise_flipVip {i : Instr} {s : State} (hr : Ready i s) (hp : ¬ OnVmePath i.size s) :
    popOrRaise i.size i.prefixes s.flipVip = popOrRaise i.size i.prefixes s := by
  simp only [popOrRaise, flipVip_guardFault, flipVip_stackRead]
  cases hg : guardFault i.size s with
  | some f => rfl
  | none =>
    have hv := v86Low_eq_false_of_guardFault_eq_none hr hp hg
    simp only [valueFault, flipVip_v86Low, hv, Bool.false_and]

theorem newFlags_flipVip {i : Instr} {s : State} (hr : Ready i s) (hl : ¬ VirtualLow s) (t : Quad) :
    newFlags i.size s.flipVip t = newFlags i.size s t ^^^ 0x100000#64 := by
  have hr' : Ready i s.flipVip := by
    refine (launchRefusal_eq_none_iff i.size i.length _).1 ?_
    rw [flipVip_launchRefusal]
    exact (launchRefusal_eq_none_iff _ _ _).2 hr
  have hl' : ¬ VirtualLow s.flipVip := by rwa [VirtualLow, flipVip_iopl]
  rw [newFlags_of_not_low hr' hl', newFlags_of_not_low hr hl, flipVip_tableMask]
  exact flagsUnder_xor_vip (tableMask_getLsbD_of_not_mem _ _ _ (by decide)) _ _

theorem exec_flipVip {i : Instr} {s : State} (hp : ¬ OnVmePath i.size s) :
    exec i s.flipVip = mapNext State.flipVip (exec i s) := by
  refine exec_mapNext (flipVip_launchRefusal _ _ _) fun hr => ?_
  have hpop := popOrRaise_flipVip hr hp
  cases h : popOrRaise i.size i.prefixes s with
  | error e => exact .inl ⟨e, rfl, hpop.trans h⟩
  | ok t =>
    obtain ⟨-, hg, -⟩ := (popOrRaise_eq_ok_iff _ _ _ _).1 h
    have hv := v86Low_eq_false_of_guardFault_eq_none hr hp hg
    have hl : ¬ VirtualLow s := by rw [← v86Low_iff hr.1, hv]; decide
    refine .inr ⟨t, t, rfl, hpop.trans h, ?_⟩
    rw [newFlags_flipVip hr hl]
    rfl

end Sys2Proof.Machine

/-! ## The statements of 10_state.md: VM, VIP and VIF, the reserved bits -/

namespace Sys2Proof

open Machine

/-- Settles O15: bit 17 is not writable, the rest is the frame, and the launch premises tie the mode to VM. -/
theorem vmIsNeverWritten : Obligations.VmIsNeverWritten := by
  intro i s t h
  obtain ⟨hr, ht, -⟩ := exec_next_cases h
  have hvm : t.rflags.getLsbD 17 = s.rflags.getLsbD 17 := vm_of_exec h
  have hmode : t.mode = s.mode := by rw [ht]
  have hpe : t.cr0PE = s.cr0PE := by rw [ht]
  refine ⟨hvm, hmode, hpe, mode_eq_v86_iff_vm hr.1, ?_⟩
  rw [hvm, hmode, hpe]
  exact mode_eq_v86_iff_vm hr.1

/-- Settles O16: VIP is not writable, VIF goes by the path, and off the VME path inverting VIP commutes with `exec`. -/
theorem vipIsNeverWrittenAndVifOnlyOnTheVmePath : Obligations.VipIsNeverWrittenAndVifOnlyOnTheVmePath := by
  refine ⟨fun i s t h => ⟨?_, vif_of_exec_of_virtualLow h, vif_of_exec_of_not_virtualLow h⟩, ?_⟩
  · exact rflags_getLsbD_of_not_writableBit h (by decide)
  · exact fun _ _ hp => exec_flipVip hp

/-- Settles O17: no reserved position is writable. -/
theorem reservedBitsAreNeverWritten : Obligations.ReservedBitsAreNeverWritten :=
  fun _ _ _ _ h hk => rflags_getLsbD_of_not_writableBit h (not_writableBit_of_reservedBit hk)

end Sys2Proof

/-! ## Memory

The pop only reads the stack: memory is in the frame of every completed execution, hence of every step that completes. -/

namespace Sys2Proof.Machine

theorem mem_of_exec {i : Instr} {s t : State} (h : exec i s = .next t) : t.mem = s.mem := by
  obtain ⟨-, hframe, -⟩ := exec_next_cases h
  rw [hframe]

theorem mem_of_step {s t : State} (h : step s = .next t) : t.mem = s.mem := by
  obtain ⟨_, hexec⟩ := exec_of_step h
  exact mem_of_exec hexec

end Sys2Proof.Machine

/-! ## The statement of 20_memory.md: nothing is stored -/

namespace Sys2Proof

open Machine

/-- Settles O22: memory is in the frame of `exec`, and a completed step is the execution of some instruction. -/
theorem noByteOfMemoryIsWritten : Obligations.NoByteOfMemoryIsWritten := by
  refine ⟨fun i s t a h => ?_, fun s t h => mem_of_step h⟩
  rw [mem_of_exec h]

end Sys2Proof

/-! ## The write masks, bit by bit

A mask is decided by the operand size, the level used and the old IOPL: the table of 40_popf.md R66 asks for the mode
and CPL only through the level. -/

namespace Sys2Proof.Machine

/-- The mask of 40_popf.md R66 for a size, a level and an IOPL. -/
def levelMask (size : Width) (level iopl : BitVec 2) : Quad :=
  (if level = 0#2 then 0x7FD5#64 else if level ≤ iopl then 0x4FD5#64 else 0x4DD5#64) |||
    (if size = .w16 then 0#64 else 0x240000#64)

theorem level_eq_zero_iff {s : State} (h : LaunchPremises s) :
    s.level = 0#2 ↔ s.mode = .real ∨ (s.vm = false ∧ s.cpl = 0#2) := by
  obtain ⟨hreal, hv86, -, -, hcpl, -⟩ := id h
  rw [level_eq h]
  by_cases hm : s.mode = .real
  · simp [hm]
  · have hpe : s.cr0PE = true := by simpa [hm] using hreal
    cases hvm : s.vm with
    | false => simp [hm]
    | true => simp [hm, hcpl (hv86.2 ⟨hpe, hvm⟩)]

theorem tableMask_eq_levelMask {s : State} (h : LaunchPremises s) (size : Width) :
    tableMask size s = levelMask size s.level s.iopl := by
  have hzero := level_eq_zero_iff h
  have hlow : (if s.mode = .real ∨ (s.vm = false ∧ s.cpl = 0#2) then 0x7FD5#64
      else if s.cpl ≤ s.iopl then 0x4FD5#64 else 0x4DD5#64) =
      if s.level = 0#2 then 0x7FD5#64 else if s.level ≤ s.iopl then 0x4FD5#64 else 0x4DD5#64 := by
    by_cases hz : s.level = 0#2
    · rw [if_pos (hzero.1 hz), if_pos hz]
    · have hm : s.mode ≠ .real := fun hm => hz (hzero.2 (.inl hm))
      rw [if_neg (mt hzero.2 hz), if_neg hz, level_eq h, if_neg hm]
  rw [tableMask, levelMask, hlow]
  by_cases hs : size = .w16
  · simp only [hs, if_true, BitVec.or_zero]
  · simp only [hs, if_false]

section LevelMask
variable (size : Width) (level iopl : BitVec 2)

/-- Every mask has the nine arithmetic and control flags. -/
theorem levelMask_getLsbD_base :
    ∀ k ∈ [0, 2, 4, 6, 7, 8, 10, 11, 14], (levelMask size level iopl).getLsbD k = true := by
  unfold levelMask
  (repeat' split) <;> decide

/-- A mask has IF where the level is at least as privileged as the old IOPL. -/
theorem levelMask_getLsbD_fi : (levelMask size level iopl).getLsbD 9 = decide (level ≤ iopl) := by
  revert level iopl
  cases size <;> decide

/-- A mask has IOPL at level 0. -/
theorem levelMask_getLsbD_iopl :
    ∀ k ∈ [12, 13], (levelMask size level iopl).getLsbD k = decide (level = 0#2) := by
  revert level iopl
  cases size <;> decide

/-- A mask has AC and ID for a pop wider than 16 bits. -/
theorem levelMask_getLsbD_wide :
    ∀ k ∈ [18, 21], (levelMask size level iopl).getLsbD k = decide (size ≠ .w16) := by
  revert level iopl
  cases size <;> decide

end LevelMask

/-- The mask at level 3 with IOPL < 3 has neither IF nor IOPL. -/
theorem levelMask_at_level3 {size : Width} {iopl : BitVec 2} (h : iopl < 3#2) :
    levelMask size 3#2 iopl = if size = .w16 then 0x4DD5#64 else 0x244DD5#64 := by
  revert iopl
  cases size <;> decide

end Sys2Proof.Machine

/-! ## Executions outside virtual-8086 mode with IOPL < 3 -/

namespace Sys2Proof.Machine

/-- There an admitted execution without LOCK completes, whatever the level: neither the guard nor the value test
applies. -/
theorem completes_of_not_virtualLow {i : Instr} {s : State} (hr : Ready i s) (hlock : Pfx.lock ∉ i.prefixes)
    (ha : Admits i.size s) (hl : ¬ VirtualLow s) : Completes i s := by
  have hv : s.v86Low ≠ true := mt (v86Low_iff hr.1).1 hl
  have hg : guardFault i.size s = none := by rw [guardFault_eq, if_neg (fun h => hv h.1)]
  have hval : valueFault s (s.stackValue i.size) = none := by rw [valueFault_eq, if_neg (fun h => hv h.1)]
  exact ⟨_, (exec_eq_next_iff _ _ _).2 ⟨hr, hlock, hg, ha, hval, rfl⟩⟩

/-- RFLAGS after such an execution: under the mask of the level. -/
theorem rflags_of_not_virtualLow {i : Instr} {s t : State} (h : exec i s = .next t) (hl : ¬ VirtualLow s) :
    t.rflags = flagsUnder (levelMask i.size s.level s.iopl) s.rflags (s.stackValue i.size) := by
  obtain ⟨hr, -, ⟨-, hf⟩ | ⟨hw, -⟩⟩ := exec_next_cases h
  · rw [hf, tableMask_eq_levelMask hr.1]
  · exact absurd hw hl

/-- Each bit but RF after such an execution: the mask of the level selects it. -/
theorem rflags_getLsbD_of_not_virtualLow {i : Instr} {s t : State} (h : exec i s = .next t) (hl : ¬ VirtualLow s)
    {k : Nat} (hk : k ≠ 16) :
    t.rflags.getLsbD k =
      if (levelMask i.size s.level s.iopl).getLsbD k then (s.stackValue i.size).getLsbD k else s.rflags.getLsbD k := by
  rw [rflags_of_not_virtualLow h hl, flagsUnder_getLsbD, if_neg hk]

/-- IOPL after such an execution: the stack's at level 0, else kept. -/
theorem iopl_of_not_virtualLow {i : Instr} {s t : State} (h : exec i s = .next t) (hl : ¬ VirtualLow s) :
    t.iopl = if s.level = 0#2 then ioplOf (s.stackValue i.size) else s.iopl := by
  have hbit : ∀ k ∈ [12, 13], t.rflags.getLsbD k =
      if s.level = 0#2 then (s.stackValue i.size).getLsbD k else s.rflags.getLsbD k := by
    intro k hk
    have h16 : k ≠ 16 := by rintro rfl; revert hk; decide
    rw [rflags_getLsbD_of_not_virtualLow h hl h16, levelMask_getLsbD_iopl _ _ _ k hk]
    simp only [decide_eq_true_eq]
  have h12 := hbit 12 (by decide)
  have h13 := hbit 13 (by decide)
  by_cases hz : s.level = 0#2
  · rw [if_pos hz] at h12 h13 ⊢
    exact ioplOf_congr h12 h13
  · rw [if_neg hz] at h12 h13 ⊢
    exact ioplOf_congr h12 h13

/-- #GP is raised in virtual-8086 mode only. -/
theorem mode_eq_v86_of_exec_eq_gp {i : Instr} {s : State} {c : ErrorCode} (h : exec i s = .fault (.gp c)) :
    s.mode = .v86 := by
  obtain ⟨-, ⟨hf, -⟩ | ⟨-, hl, -⟩ | ⟨hf, -⟩ | ⟨hf, -⟩ | ⟨-, _, hf, -⟩⟩ := exec_fault_cases h
  · cases hf
  · exact hl.1
  · rw [ssFault] at hf
    split at hf <;> cases hf
  · cases hf
  · cases hf

end Sys2Proof.Machine

/-! ## A state with another CR4.PVI

No check, no read and no flag rule reads CR4.PVI, so every part of an execution is the same by computation. -/

namespace Sys2Proof.Machine

theorem exec_withPvi (i : Instr) (s : State) (b : Bool) :
    exec i { s with cr4PVI := b } = mapNext (fun t => { t with cr4PVI := b }) (exec i s) := by
  refine exec_mapNext rfl fun _ => ?_
  cases h : popOrRaise i.size i.prefixes s with
  | error e => exact .inl ⟨e, rfl, h⟩
  | ok t => exact .inr ⟨t, t, rfl, h, rfl⟩

end Sys2Proof.Machine

/-! ## Table 4-15: what its cells say of one bit -/

namespace Sys2Proof.Machine

/-- The cell of bit `k` where a mask selects what is written. -/
def maskCell (mask : Quad) (k : Nat) : Cell :=
  if k = 16 then .cleared else if mask.getLsbD k then .fromStack else .noChange

/-- The cell of bit `k` on the VME path. -/
def vmeCell (k : Nat) : Cell := if k = 19 then .fromStackIf else maskCell 0x4DD5#64 k

theorem flagsUnder_getLsbD_eq_maskCell (m o t : Quad) (k : Nat) :
    (flagsUnder m o t).getLsbD k = (maskCell m k).bitAfter o t k := by
  rw [flagsUnder_getLsbD, maskCell]
  (repeat' split) <;> rfl

theorem flagsUnderVme_getLsbD_eq_vmeCell (o t : Quad) (k : Nat) :
    (flagsUnderVme o t).getLsbD k = (vmeCell k).bitAfter o t k := by
  rw [flagsUnderVme_getLsbD, vmeCell, maskCell]
  by_cases h19 : k = 19
  · subst h19; rfl
  · simp only [h19, if_false]
    (repeat' split) <;> rfl

theorem table415_maskOfCells : ∀ r ∈ table415, r.maskOfCells = r.mask := by decide

/-- The cells of a row without notes are those of its mask. -/
theorem table415_maskCell : ∀ r ∈ table415, r.notes = [] →
    ∀ fc ∈ r.flagCells, ∀ k ∈ fc.1.bits, fc.2 = maskCell r.mask k := by decide

/-- The cells of the row with notes 2 and 3 are those of the VME path. -/
theorem table415_vmeCell : ∀ r ∈ table415, r.notes = [2, 3] →
    ∀ fc ∈ r.flagCells, ∀ k ∈ fc.1.bits, fc.2 = vmeCell k := by decide

end Sys2Proof.Machine

/-! ## Table 4-15: the one row of a launch state

The state is in one of the four groups of rows; within a group a row is told by the size, the level and the old IOPL
alone, which is a finite check. -/

namespace Sys2Proof.Machine

/-- The IOPL condition on a level and an IOPL, without the state. -/
def IoplCondition.admits (c : IoplCondition) (level iopl : BitVec 2) : Bool :=
  match c with
  | .any => true
  | .belowCpl => iopl < level
  | .atLeastCpl => level ≤ iopl
  | .zeroToTwo => iopl < 3#2
  | .three => iopl == 3#2

/-- The row's columns besides its group hold of a size, a level and an IOPL. -/
def Row.fits (r : Row) (size : Width) (level iopl : BitVec 2) : Bool :=
  r.sizes.contains size && r.cpls.contains level && r.iopl.admits level iopl

theorem Row.applies_eq (r : Row) (size : Width) (s : State) :
    r.applies size s = (r.group.holds s && r.fits size s.level s.iopl) := by
  have hiopl : r.iopl.holds s = r.iopl.admits s.level s.iopl := by cases r.iopl <;> rfl
  rw [Row.applies, Row.fits, hiopl, Bool.and_assoc, Bool.and_assoc, Bool.and_assoc]

/-- The rows of the group that the state is in. -/
def groupRows (s : State) : List Row :=
  if s.cr0PE then (if s.vm then (if s.cr4VME then rowsVme else rowsVirtual) else rowsProtected) else rowsReal

theorem filter_applies_of_group {rows : List Row} {g : RowGroup} (hg : ∀ r ∈ rows, r.group = g) (size : Width)
    (s : State) :
    rows.filter (·.applies size s) = if g.holds s then rows.filter (·.fits size s.level s.iopl) else [] := by
  cases hs : g.holds s with
  | true => exact List.filter_congr fun r hr => by rw [Row.applies_eq, hg r hr, hs, Bool.true_and]
  | false =>
    refine List.filter_eq_nil_iff.2 fun r hr => ?_
    rw [Row.applies_eq, hg r hr, hs, Bool.false_and]
    exact Bool.false_ne_true

theorem table415_filter_applies (size : Width) (s : State) :
    table415.filter (·.applies size s) = (groupRows s).filter (·.fits size s.level s.iopl) := by
  rw [table415, List.filter_append, List.filter_append, List.filter_append,
    filter_applies_of_group (g := .realAddress) (by decide), filter_applies_of_group (g := .protectedGroup) (by decide),
    filter_applies_of_group (g := .virtual8086) (by decide), filter_applies_of_group (g := .vme) (by decide)]
  unfold groupRows RowGroup.holds
  cases s.cr0PE <;> cases s.vm <;> cases s.cr4VME <;> simp

theorem rowsReal_fits_length {size : Width} (hs : size ≠ .w64) (iopl : BitVec 2) :
    (rowsReal.filter (·.fits size 0#2 iopl)).length = 1 := by
  revert iopl
  cases size with
  | w16 => decide
  | w32 => decide
  | w64 => exact absurd rfl hs

theorem rowsProtected_fits_length (size : Width) (level iopl : BitVec 2) :
    (rowsProtected.filter (·.fits size level iopl)).length = 1 := by
  revert level iopl
  cases size <;> decide

theorem rowsVirtual_fits_length {size : Width} (hs : size ≠ .w64) (iopl : BitVec 2) :
    (rowsVirtual.filter (·.fits size 3#2 iopl)).length = 1 := by
  revert iopl
  cases size with
  | w16 => decide
  | w32 => decide
  | w64 => exact absurd rfl hs

theorem rowsVme_fits_length {size : Width} (hs : size ≠ .w64) (iopl : BitVec 2) :
    (rowsVme.filter (·.fits size 3#2 iopl)).length = 1 := by
  revert iopl
  cases size with
  | w16 => decide
  | w32 => decide
  | w64 => exact absurd rfl hs

theorem groupRows_fits_length {size : Width} {s : State} (h : LaunchPremises s) (hs : SizeEncodable s.mode size) :
    ((groupRows s).filter (·.fits size s.level s.iopl)).length = 1 := by
  obtain ⟨hreal, hv86, -, -, hcpl, -⟩ := id h
  unfold groupRows
  cases hpe : s.cr0PE with
  | false =>
    have hm : s.mode = .real := hreal.2 hpe
    rw [level_eq h, if_pos hm]
    exact rowsReal_fits_length (fun hw => absurd (hm.symm.trans (hs.2 hw)) (by decide)) _
  | true =>
    cases hvm : s.vm with
    | false => exact rowsProtected_fits_length size _ _
    | true =>
      have hm : s.mode = .v86 := hv86.2 ⟨hpe, hvm⟩
      have hsize : size ≠ .w64 := fun hw => absurd (hm.symm.trans (hs.2 hw)) (by decide)
      have hlevel : s.level = 3#2 := by rw [level_eq h, if_neg (by simp [hm]), hcpl hm]
      rw [hlevel]
      cases s.cr4VME with
      | false => exact rowsVirtual_fits_length hsize _
      | true => exact rowsVme_fits_length hsize _

/-- Exactly one row is the one for a launch state and a size its mode encodes. -/
theorem exists_unique_applying_row {size : Width} {s : State} (h : LaunchPremises s) (hs : SizeEncodable s.mode size) :
    ∃ r ∈ table415, r.applies size s = true ∧ ∀ r' ∈ table415, r'.applies size s = true → r' = r := by
  obtain ⟨r, hr⟩ := List.length_eq_one_iff.1 (groupRows_fits_length h hs)
  have hmem : ∀ r', r' ∈ table415 ∧ r'.applies size s = true ↔ r' = r := fun r' =>
    calc r' ∈ table415 ∧ r'.applies size s = true
      _ ↔ r' ∈ table415.filter (·.applies size s) := by rw [List.mem_filter]
      _ ↔ r' = r := by rw [table415_filter_applies, hr, List.mem_singleton]
  obtain ⟨hmem_r, happ⟩ := (hmem r).2 rfl
  exact ⟨r, hmem_r, happ, fun r' hm ha => (hmem r').1 ⟨hm, ha⟩⟩

/-! ### What the row for a state says -/

/-- The masks of the rows without notes are those of their size, level and IOPL. -/
theorem mask_eq_levelMask_of_fits {size : Width} {level iopl : BitVec 2} :
    ∀ r ∈ table415, r.notes = [] → r.fits size level iopl = true → r.mask = levelMask size level iopl := by
  revert level iopl
  cases size <;> decide

/-- The three kinds of rows by their notes: without a note, where virtual-8086 mode asks for IOPL 3; note 1, without
VME or for 32 bits; notes 2 and 3, for 16 bits with VME. -/
theorem table415_notes_cases : ∀ r ∈ table415,
    (r.notes = [] ∧ (r.group ∈ [.realAddress, .protectedGroup] ∨ r.iopl = .three)) ∨
    (r.notes = [1] ∧ r.iopl = .zeroToTwo ∧ (r.group = .virtual8086 ∨ r.group = .vme ∧ r.sizes = [.w32])) ∨
    (r.notes = [2, 3] ∧ r.iopl = .zeroToTwo ∧ r.group = .vme ∧ r.sizes = [.w16]) := by decide

/-- What the row for a launch state tells of the path an execution takes: a mask, the guard, or the VME path. -/
theorem row_cases {size : Width} {s : State} {r : Row} (h : LaunchPremises s) (hr : r ∈ table415)
    (ha : r.applies size s = true) :
    (r.notes = [] ∧ ¬ VirtualLow s ∧ r.mask = levelMask size s.level s.iopl) ∨
    (r.notes = [1] ∧ VirtualLow s ∧ (size = .w32 ∨ s.cr4VME = false)) ∨
    (r.notes = [2, 3] ∧ OnVmePath size s) := by
  obtain ⟨-, hv86, -⟩ := id h
  rw [Row.applies_eq, Bool.and_eq_true] at ha
  obtain ⟨hgroup, hfits⟩ := ha
  obtain ⟨hsize, -, hiopl⟩ : size ∈ r.sizes ∧ s.level ∈ r.cpls ∧ r.iopl.admits s.level s.iopl = true := by
    simpa [Row.fits, and_assoc] using hfits
  have hlow (hz : r.iopl = .zeroToTwo) (hpe : s.cr0PE = true) (hvm : s.vm = true) : VirtualLow s :=
    ⟨hv86.2 ⟨hpe, hvm⟩, by simpa [hz, IoplCondition.admits] using hiopl⟩
  rcases table415_notes_cases r hr with ⟨hn, hg⟩ | ⟨hn, hz, hg⟩ | ⟨hn, hz, hg, hw⟩
  · refine .inl ⟨hn, fun hl => ?_, mask_eq_levelMask_of_fits r hr hn hfits⟩
    obtain ⟨hpe, hvm⟩ := hv86.1 hl.1
    rcases hg with hg | hg
    · rcases List.mem_pair.1 hg with hg | hg <;> simp [hg, RowGroup.holds, hpe, hvm] at hgroup
    · have hthree : s.iopl = 3#2 := by simpa [hg, IoplCondition.admits] using hiopl
      exact absurd (hthree ▸ hl.2) (by decide)
  · refine .inr (.inl ⟨hn, ?_⟩)
    rcases hg with hg | ⟨hg, hw⟩
    · obtain ⟨⟨hpe, hvm⟩, hvme⟩ : (s.cr0PE = true ∧ s.vm = true) ∧ s.cr4VME = false := by
        simpa [hg, RowGroup.holds] using hgroup
      exact ⟨hlow hz hpe hvm, .inr hvme⟩
    · obtain ⟨⟨hpe, hvm⟩, -⟩ : (s.cr0PE = true ∧ s.vm = true) ∧ s.cr4VME = true := by
        simpa [hg, RowGroup.holds] using hgroup
      exact ⟨hlow hz hpe hvm, .inl (List.mem_singleton.1 (hw ▸ hsize))⟩
  · obtain ⟨⟨hpe, hvm⟩, hvme⟩ : (s.cr0PE = true ∧ s.vm = true) ∧ s.cr4VME = true := by
      simpa [hg, RowGroup.holds] using hgroup
    exact .inr (.inr ⟨hn, hlow hz hpe hvm, hvme, List.mem_singleton.1 (hw ▸ hsize)⟩)

end Sys2Proof.Machine

/-! ## The two #GP(0) of virtual-8086 mode -/

namespace Sys2Proof.Machine

theorem exec_eq_gp_of_guard {i : Instr} {s : State} (hr : Ready i s) (hlock : Pfx.lock ∉ i.prefixes)
    (hl : VirtualLow s) (hg : i.size = .w32 ∨ s.cr4VME = false) : exec i s = .fault (.gp 0) := by
  refine (exec_eq_fault_iff _ _ _).2 ⟨hr, (popOrRaise_eq_error_iff _ _ _ _).2 (.inr (.inl ⟨hlock, ?_⟩))⟩
  rw [guardFault_eq, if_pos ⟨(v86Low_iff hr.1).2 hl, hg⟩]

theorem exec_eq_gp_of_value {i : Instr} {s : State} (hr : Ready i s) (hlock : Pfx.lock ∉ i.prefixes)
    (hp : OnVmePath i.size s) (ha : Admits i.size s)
    (hv : s.vip = true ∧ (s.stackValue i.size).getLsbD 9 = true ∨ (s.stackValue i.size).getLsbD 8 = true) :
    exec i s = .fault (.gp 0) := by
  obtain ⟨hl, hvme, hsize⟩ := hp
  have hguard : guardFault i.size s = none := by
    rw [guardFault_eq, if_neg]
    simp [hvme, hsize]
  refine (exec_eq_fault_iff _ _ _).2 ⟨hr, (popOrRaise_eq_error_iff _ _ _ _).2 (.inr (.inr (.inr
    ⟨hlock, hguard, (stackFault_eq_none_iff _ _).2 ha, ?_⟩)))⟩
  rw [valueFault_eq, if_pos ⟨(v86Low_iff hr.1).2 hl, hv⟩]

end Sys2Proof.Machine

/-! ## The statements of 40_popf.md: the flags table, RF, privilege, CR4.PVI -/

namespace Sys2Proof

open Machine

/-- Settles O12: one row of one group applies, and its notes tell the path: a mask, the guard, or the VME path. -/
theorem flagsFollowTable415 : Obligations.FlagsFollowTable415 := by
  refine ⟨table415_maskOfCells, fun i s h hs => ?_⟩
  obtain ⟨r, hr, happ, huniq⟩ := exists_unique_applying_row h hs
  refine ⟨r, hr, happ, huniq, ?_⟩
  rcases row_cases h hr happ with ⟨hn, hl, hmask⟩ | ⟨hn, hl, hg⟩ | ⟨hn, hp⟩
  · refine ⟨by simp [hn], by simp [hn], fun t ht => ⟨by simp [hn], by simp [hn], by simp [hn], ?_⟩⟩
    intro fc hfc k hk
    rw [rflags_of_not_virtualLow ht hl, ← hmask, flagsUnder_getLsbD_eq_maskCell,
      table415_maskCell r hr hn fc hfc k hk]
  · have hgp (hip : IpFits i s) (hlock : Pfx.lock ∉ i.prefixes) : exec i s = .fault (.gp 0) :=
      exec_eq_gp_of_guard ⟨h, hs, hip⟩ hlock hl hg
    refine ⟨fun hip hlock _ => hgp hip hlock, by simp [hn], fun t ht => ?_⟩
    obtain ⟨⟨-, -, hip⟩, hlock, -⟩ := (exec_eq_next_iff _ _ _).1 ht
    exact absurd (ht.symm.trans (hgp hip hlock)) nofun
  · refine ⟨by simp [hn], fun hip hlock ha hv => ?_, fun t ht => ?_⟩
    · exact exec_eq_gp_of_value ⟨h, hs, hip⟩ hlock hp ha (by simpa [hn] using hv)
    · obtain ⟨-, -, ⟨hw, -⟩ | ⟨-, -, -, hvip, htf, hf⟩⟩ := exec_next_cases ht
      · exact absurd hp.1 hw
      · refine ⟨by simp [hn], fun _ => hvip, fun _ => htf, fun fc hfc k hk => ?_⟩
        rw [hf, flagsUnderVme_getLsbD_eq_vmeCell, table415_vmeCell r hr hn fc hfc k hk]

/-- Settles O14: both forms of the new flags clear RF. -/
theorem rfIsClearedByEveryCompletion : Obligations.RfIsClearedByEveryCompletion := by
  intro i s t h
  obtain ⟨-, -, ⟨-, hf⟩ | ⟨-, -, -, -, -, hf⟩⟩ := exec_next_cases h
  · rw [hf, flagsUnder_getLsbD, if_pos rfl]
  · rw [hf, flagsUnderVme_getLsbD, if_pos rfl]

/-- Settles O19: #GP is virtual-8086 mode's alone, and elsewhere the mask of the level selects each bit. -/
theorem insufficientPrivilegeIsSilent : Obligations.InsufficientPrivilegeIsSilent := by
  intro i s hm
  have hl : ¬ VirtualLow s := fun hl => hm hl.1
  refine ⟨fun c h => hm (mode_eq_v86_of_exec_eq_gp h), fun hr hlock ha => ?_⟩
  obtain ⟨t, ht⟩ := completes_of_not_virtualLow hr hlock ha hl
  have written {k : Nat} (hk : (levelMask i.size s.level s.iopl).getLsbD k = true) (h16 : k ≠ 16) :
      t.rflags.getLsbD k = (s.stackValue i.size).getLsbD k := by
    rw [rflags_getLsbD_of_not_virtualLow ht hl h16, if_pos hk]
  refine ⟨t, ht, ?_, iopl_of_not_virtualLow ht hl, fun k hk => ?_, fun hs k hk => ?_⟩
  · rw [rflags_getLsbD_of_not_virtualLow ht hl (by decide), levelMask_getLsbD_fi]
    simp only [decide_eq_true_eq]
  · exact written (levelMask_getLsbD_base _ _ _ k hk) (by rintro rfl; exact absurd hk (by decide))
  · exact written (by rw [levelMask_getLsbD_wide _ _ _ k hk, decide_eq_true hs])
      (by rintro rfl; exact absurd hk (by decide))

/-- Settles O20: CR4.PVI is read nowhere, and protected mode with CPL = 3 and IOPL < 3 writes under its
ordinary mask. -/
theorem pviHasNoEffect : Obligations.PviHasNoEffect := by
  refine ⟨exec_withPvi, fun i s t hm hcpl hiopl h => ?_⟩
  have hl : ¬ VirtualLow s := fun hl => absurd (hm.symm.trans hl.1) (by decide)
  refine ⟨?_, vif_of_exec_of_not_virtualLow h hl, rflags_getLsbD_of_not_writableBit h (by decide)⟩
  obtain ⟨hr, -⟩ := exec_next_cases h
  have hlevel : s.level = 3#2 := by rw [level_eq hr.1, if_neg (by simp [hm]), hcpl]
  rw [rflags_of_not_virtualLow h hl, hlevel, levelMask_at_level3 hiopl]

end Sys2Proof

/-! ## The decoder

The scan of the prefixes is the whole of the decoder: the mnemonic is then a function of the context and of them. -/

namespace Sys2Proof

theorem wellFormed_iff (c : CodeContext) (i : Instr) :
    WellFormed c i = true ↔
      i.prefixes.count .lock ≤ 1 ∧ i.size = operandSize c (i.prefixes.contains .opSize) := by
  simp [WellFormed, prefixesAdmitted, sizeSelected]

theorem decode_of_scan {c : CodeContext} {bs rest : List Byte} {ps : List Pfx}
    (h : scanPrefixes c.mode bs = .ok (ps, rest)) :
    decode c bs = .ok (instrOf (operandSize c (ps.contains .opSize)) ps, rest) := by
  rw [decode, h]

theorem decode_of_scan_error {c : CodeContext} {bs : List Byte} {e : DecodeError}
    (h : scanPrefixes c.mode bs = .error e) : decode c bs = .error e := by
  rw [decode, h]

/-- The decoder accepts exactly the encodings of well-formed instructions. -/
theorem decode_eq_ok_iff (c : CodeContext) (bs : List Byte) (i : Instr) (rest : List Byte) :
    decode c bs = .ok (i, rest) ↔ WellFormed c i = true ∧ bs = encode i ++ rest := by
  rw [wellFormed_iff]
  constructor
  · intro h
    cases hs : scanPrefixes c.mode bs with
    | error e => cases (decode_of_scan_error hs).symm.trans h
    | ok r =>
      obtain ⟨ps, rest'⟩ := r
      cases (decode_of_scan hs).symm.trans h
      obtain ⟨hcount, hbs⟩ := scanPrefixes_ok hs
      rw [encode, instrOf_prefixes, instrOf_size]
      exact ⟨⟨hcount, rfl⟩, hbs⟩
  · rintro ⟨⟨hcount, hsize⟩, rfl⟩
    rw [encode, decode_of_scan (scanPrefixes_encode _ _ _ hcount), ← hsize, instrOf_eta]

/-- The operand size that a context selects is one that its mode encodes. -/
theorem sizeEncodable_operandSize (c : CodeContext) (override : Bool) :
    Machine.SizeEncodable c.mode (operandSize c override) := by
  obtain ⟨m, d⟩ := c
  cases m <;> cases d <;> cases override <;> decide

/-- A byte that is neither the opcode nor one of the admitted prefixes ends the scan in a refusal. -/
theorem scanPrefixes_other (m : Mode) (ps : List Pfx) {b : Byte} (rest : List Byte) (hop : b ≠ opcodeByte)
    (hpfx : pfxOf b = none) : ∃ e, scanPrefixes m (ps.map Pfx.byte ++ b :: rest) = .error e := by
  induction ps with
  | nil => exact ⟨rejectName m b, by simp [scanPrefixes, hop, hpfx]⟩
  | cons p ps ih =>
    obtain ⟨e, he⟩ := ih
    exact ⟨e, by simp [scanPrefixes, byte_ne_opcode, pfxOf_byte, he]⟩

end Sys2Proof

/-! ## The step by the answer of the decoder -/

namespace Sys2Proof.Machine

theorem step_of_decode_ok {s : State} {i : Instr} {rest : List Byte}
    (h : decode s.codeContext s.fetchBytes = .ok (i, rest)) : step s = exec i s := by
  rw [step, State.fetch, h]

theorem step_of_decode_truncated {s : State} (h : decode s.codeContext s.fetchBytes = .error .truncated) :
    step s = .refused .ipWraps := by
  rw [step, State.fetch, h]

theorem step_refused_of_decode_error {s : State} {e : DecodeError}
    (h : decode s.codeContext s.fetchBytes = .error e) : ∃ r, step s = .refused r := by
  rw [step, State.fetch, h]
  cases e <;> exact ⟨_, rfl⟩

/-- Prefixes that fill the window of the fetch leave no room for the opcode byte. -/
theorem step_of_fetchBytes_eq_prefixes {s : State} {ps : List Pfx} (h : s.fetchBytes = ps.map Pfx.byte) :
    step s = .refused .ipWraps := by
  refine step_of_decode_truncated (decode_of_scan_error ?_)
  rw [h, scanPrefixes_truncated]

/-- What the fetch sees of a string of prefixes and one more byte: all of it, or prefixes alone. -/
theorem fetchBytes_of_prefixes {s : State} {ps : List Pfx} {b : Byte}
    (h : BytesAtIp s (ps.map Pfx.byte ++ [b])) :
    (ps.length < s.fetchWindow → ∃ rest, s.fetchBytes = ps.map Pfx.byte ++ [b] ++ rest) ∧
    (s.fetchWindow ≤ ps.length → s.fetchBytes = (ps.take s.fetchWindow).map Pfx.byte) := by
  have hlen : (ps.map Pfx.byte ++ [b]).length = ps.length + 1 := by simp
  obtain ⟨hall, hcut⟩ := fetchBytes_of_bytesAtIp h
  rw [hlen] at hall hcut
  refine ⟨hall, fun hle => ?_⟩
  rw [hcut (by omega), List.take_append_of_le_length (by simpa using hle), List.map_take]

/-- The first check of the launch: a size that the mode does not encode. -/
theorem exec_of_not_encodable {i : Instr} {s : State} (h : encodable s.mode i.size = false) :
    exec i s = .refused .notEncodable := by
  have hr : launchRefusal i.size (i.prefixes.length + 1) s = some .notEncodable := by simp [launchRefusal, h]
  rw [exec_eq_popFlags, popFlags, hr]

theorem exec_ne_refused_of_ready {i : Instr} {s : State} (h : Ready i s) (r : Refusal) : exec i s ≠ .refused r := by
  rw [exec_of_ready h]
  cases popOrRaise i.size i.prefixes s <;> nofun

end Sys2Proof.Machine

/-! ## The statements of 30_encoding.md, and the step -/

namespace Sys2Proof

open Machine

/-- Settles O2: the decoder accepts exactly the encodings. -/
theorem decodeOfEncodeIsTheInstruction : Obligations.DecodeOfEncodeIsTheInstruction :=
  fun c i rest h => (decode_eq_ok_iff c _ i rest).2 ⟨h, rfl⟩

/-- Settles O3: the decoder accepts exactly the encodings. -/
theorem acceptedBytesAreAnEncoding : Obligations.AcceptedBytesAreAnEncoding :=
  fun c bs i rest h => (decode_eq_ok_iff c bs i rest).1 h

/-- Settles O4: the size decoded is the one that the context selects, and the launch check asks for the size first. -/
theorem unencodableFormsAreNeverDecodedAndRefused : Obligations.UnencodableFormsAreNeverDecodedAndRefused := by
  refine ⟨fun c bs i rest h => ?_, fun pre s hm => ?_, fun pre s hm => ?_⟩
  · obtain ⟨hwf, -⟩ := (decode_eq_ok_iff c bs i rest).1 h
    obtain ⟨-, hsize⟩ := (wellFormed_iff c i).1 hwf
    obtain ⟨h32, h64⟩ := sizeEncodable_operandSize c (i.prefixes.contains .opSize)
    rw [hsize]
    exact ⟨fun hm hs => h32 hs hm, fun hm hs => hm (h64 hs)⟩
  · exact exec_of_not_encodable (by rw [hm]; rfl)
  · exact exec_of_not_encodable (by simpa [encodable, Instr.size] using hm)

/-- Settles O5: the scan of the bytes fetched ends at the other byte, or runs out before it. -/
theorem otherBytesAreRefusedNotFaulted : Obligations.OtherBytesAreRefusedNotFaulted := by
  intro s pre b hop h66 hF0 hbytes
  obtain ⟨hall, hcut⟩ := fetchBytes_of_prefixes hbytes
  rcases Nat.lt_or_ge pre.length s.fetchWindow with hlt | hge
  · obtain ⟨rest, hrest⟩ := hall hlt
    obtain ⟨e, he⟩ := scanPrefixes_other s.codeContext.mode pre rest hop (by simp [pfxOf, h66, hF0])
    refine step_refused_of_decode_error (decode_of_scan_error (e := e) ?_)
    rw [hrest, List.append_assoc]
    exact he
  · exact ⟨_, step_of_fetchBytes_eq_prefixes (hcut hge)⟩

/-- Settles O6: the window of the fetch holds the whole encoding, or only prefixes of it. -/
theorem stepExecutesTheInstructionAtIp : Obligations.StepExecutesTheInstructionAtIp := by
  intro s i hwf hbytes
  obtain ⟨hall, hcut⟩ := fetchBytes_of_prefixes hbytes
  have hwindow : s.fetchWindow = 2 ^ (ipWidth s.mode).bits - s.ip.toNat := rfl
  have hlength : i.length = i.prefixes.length + 1 := rfl
  constructor
  · intro hle
    obtain ⟨rest, hrest⟩ := hall (by omega)
    exact step_of_decode_ok ((decode_eq_ok_iff _ _ _ _).2 ⟨hwf, hrest⟩)
  · intro hlt
    exact step_of_fetchBytes_eq_prefixes (hcut (by omega))

/-- Settles O7: an execution that is not refused is ready, and a ready one is not refused. -/
theorem refusedExactlyWhenNotReady : Obligations.RefusedExactlyWhenNotReady := by
  refine fun i s => ⟨fun ⟨r, hr⟩ h => exec_ne_refused_of_ready h r hr, fun h => ?_⟩
  by_contra hr
  exact h (ready_of_exec (not_exists.1 hr))

/-- Settles O1: each string is run through the decoder, in every context it is claimed for. -/
theorem writtenOutBytesDecode : Obligations.WrittenOutBytesDecode := by
  refine ⟨fun d => ?_, rfl, rfl, rfl, rfl, rfl, rfl, rfl, rfl, fun c => ⟨rfl, rfl, rfl⟩⟩
  cases d <;> exact ⟨rfl, rfl, rfl, rfl, rfl, rfl, rfl⟩

end Sys2Proof

/-! ## The frame, the stack pointer and ip of a completed execution -/

namespace Sys2Proof.Machine

theorem frame_of_exec {i : Instr} {s t : State} (h : exec i s = .next t) :
    t = { s with rflags := t.rflags, rsp := t.rsp, ip := t.ip } := by
  obtain ⟨-, hframe, -⟩ := exec_next_cases h
  exact hframe

theorem rsp_of_exec {i : Instr} {s t : State} (h : exec i s = .next t) : t.rsp = s.popSp i.size := by
  obtain ⟨-, -, -, -, -, rfl⟩ := (exec_eq_next_iff _ _ _).1 h
  rfl

theorem ip_of_exec {i : Instr} {s t : State} (h : exec i s = .next t) :
    t.ip = s.ip + BitVec.ofNat 64 (i.prefixes.length + 1) := by
  obtain ⟨-, -, -, -, -, rfl⟩ := (exec_eq_next_iff _ _ _).1 h
  rfl

theorem ip_toNat_of_exec {i : Instr} {s t : State} (h : exec i s = .next t) :
    t.ip.toNat = s.ip.toNat + i.length := by
  obtain ⟨⟨-, -, hfits⟩, -⟩ := exec_next_cases h
  have hle : 2 ^ (ipWidth s.mode).bits ≤ 2 ^ 64 := Nat.pow_le_pow_right (by decide) (width_bits_le _)
  have hlen : i.prefixes.length + 1 = i.length := rfl
  rw [ip_of_exec h, hlen, BitVec.toNat_add, BitVec.toNat_ofNat]
  omega

theorem ip_lt_of_exec {i : Instr} {s t : State} (h : exec i s = .next t) :
    t.ip.toNat < 2 ^ (ipWidth s.mode).bits := by
  obtain ⟨⟨-, -, hfits⟩, -⟩ := exec_next_cases h
  rw [ip_toNat_of_exec h]
  exact hfits

/-- RFLAGS under the mask of 40_popf.md R66, outside virtual-8086 mode with IOPL < 3. -/
theorem rflags_of_exec_of_not_virtualLow {i : Instr} {s t : State} (h : exec i s = .next t) (hl : ¬ VirtualLow s) :
    t.rflags = flagsUnder (tableMask i.size s) s.rflags (s.stackValue i.size) := by
  obtain ⟨-, -, ⟨-, hf⟩ | ⟨hw, -⟩⟩ := exec_next_cases h
  · exact hf
  · exact absurd hw hl

/-- RFLAGS on the VME path (40_popf.md R71). -/
theorem rflags_of_exec_of_virtualLow {i : Instr} {s t : State} (h : exec i s = .next t) (hl : VirtualLow s) :
    t.rflags = flagsUnderVme s.rflags (s.stackValue i.size) := by
  obtain ⟨-, -, ⟨hn, -⟩ | ⟨-, -, -, -, -, hf⟩⟩ := exec_next_cases h
  · exact absurd hl hn
  · exact hf

/-- On the VME path a bit that is neither RF, VIF nor in `BASE` stays. -/
theorem flagsUnderVme_getLsbD_of_not_written {k : Nat} (hk : k ≠ 16) (h19 : k ≠ 19)
    (hbase : (0x4DD5#64).getLsbD k = false) (o t : Quad) : (flagsUnderVme o t).getLsbD k = o.getLsbD k := by
  rw [flagsUnderVme_getLsbD, if_neg hk, if_neg h19, hbase, if_neg Bool.false_ne_true]

/-- The written bits of the VME path are `BASE` and VIF. -/
theorem vmeWritten_getLsbD (k : Nat) :
    (0x84DD5#64).getLsbD k = ((0x4DD5#64).getLsbD k || decide (k = 19)) := by
  rw [show (0x84DD5#64) = 0x4DD5#64 ||| BitVec.twoPow 64 19 from rfl, BitVec.getLsbD_or,
    twoPow_getLsbD _ _ (by decide)]

end Sys2Proof.Machine

/-! ## The invariant -/

namespace Sys2Proof.Machine

/-- The launch premises ask of a state what the frame keeps, and VM. -/
theorem launchPremises_of_sameContext {s t : State} (h : SameContext s t) : LaunchPremises s → LaunchPremises t := by
  obtain ⟨hvm, ht⟩ := h
  have hmode : t.mode = s.mode := by rw [ht]
  have hpe : t.cr0PE = s.cr0PE := by rw [ht]
  have hcpl : t.cpl = s.cpl := by rw [ht]
  have hstack : t.stackAddrSize = s.stackAddrSize := by rw [ht]
  have hvme : t.cr4VME = s.cr4VME := by rw [ht]
  have hhas : t.hasVME = s.hasVME := by rw [ht]
  simp only [LaunchPremises, hvm, hmode, hpe, hcpl, hstack, hvme, hhas]
  exact id

theorem sameContext_refl (s : State) : SameContext s s := ⟨rfl, rfl⟩

theorem sameContext_trans {s t u : State} (h : SameContext s t) (h' : SameContext t u) : SameContext s u := by
  obtain ⟨hvm, ht⟩ := h
  obtain ⟨hvm', hu⟩ := h'
  refine ⟨hvm'.trans hvm, ?_⟩
  rw [hu, ht]

theorem sameContext_of_exec {i : Instr} {s t : State} (h : exec i s = .next t) : SameContext s t :=
  ⟨vm_of_exec h, frame_of_exec h⟩

theorem sameContext_of_step {s t : State} (h : step s = .next t) : SameContext s t := by
  obtain ⟨_, hexec⟩ := exec_of_step h
  exact sameContext_of_exec hexec

/-- Premise 5 speaks of the reserved positions alone. -/
theorem reservedStandard_congr {r r' : Quad} (h : ∀ k, ReservedBit k → r'.getLsbD k = r.getLsbD k) :
    ReservedStandard r → ReservedStandard r' := by
  have hmask : ∀ k < 64, (0xFFFFFFFFFFC0802A#64).getLsbD k = true → ReservedBit k := by decide
  have heq : r' &&& 0xFFFFFFFFFFC0802A#64 = r &&& 0xFFFFFFFFFFC0802A#64 := by
    refine BitVec.eq_of_getLsbD_eq fun k hk => ?_
    rw [BitVec.getLsbD_and, BitVec.getLsbD_and]
    cases hm : (0xFFFFFFFFFFC0802A#64).getLsbD k with
    | false => rw [Bool.and_false, Bool.and_false]
    | true => rw [h k (hmask k hk hm)]
  rw [ReservedStandard, ReservedStandard, heq]
  exact id

theorem inv_of_exec {i : Instr} {s t : State} (hs : Inv s) (h : exec i s = .next t) : Inv t := by
  obtain ⟨hlaunch, hmem, hreserved, -⟩ := hs
  have hctx := sameContext_of_exec h
  have hmode : t.mode = s.mode := by rw [hctx.2]
  refine ⟨launchPremises_of_sameContext hctx hlaunch, ?_, reservedStandard_congr (fun k hk => ?_) hreserved, ?_⟩
  · rwa [mem_of_exec h]
  · exact rflags_getLsbD_of_not_writableBit h (not_writableBit_of_reservedBit hk)
  · rw [hmode]
    exact ip_lt_of_exec h

end Sys2Proof.Machine

/-! ## How a run stands -/

namespace Sys2Proof.Machine

/-- What the spec says of a run from `s`, by how it stands: where ip is, what the next step would answer, and that the
context is that of `s` (70_reset_and_hazards.md R122). -/
def StandsAt (past : Quad) (s : State) : RunEnd → Prop
  | .running t => t.ip ≠ past ∧ SameContext s t
  | .done t => t.ip = past ∧ SameContext s t
  | .faulted f t => t.ip ≠ past ∧ step t = .fault f ∧ SameContext s t
  | .refused r t => t.ip ≠ past ∧ step t = .refused r ∧ SameContext s t

/-- A run may be said to begin one step earlier. -/
theorem standsAt_of_sameContext {past : Quad} {s t : State} (h : SameContext s t) {e : RunEnd} :
    StandsAt past t e → StandsAt past s e := by
  cases e with
  | running u => exact fun ⟨hip, hctx⟩ => ⟨hip, sameContext_trans h hctx⟩
  | done u => exact fun ⟨hip, hctx⟩ => ⟨hip, sameContext_trans h hctx⟩
  | faulted f u => exact fun ⟨hip, hstep, hctx⟩ => ⟨hip, hstep, sameContext_trans h hctx⟩
  | refused r u => exact fun ⟨hip, hstep, hctx⟩ => ⟨hip, hstep, sameContext_trans h hctx⟩

theorem run_of_ip_eq {past : Quad} {s : State} (h : s.ip = past) (n : Nat) : run past n s = .done s := by
  cases n <;> rw [run, if_pos h]

theorem run_zero_of_ip_ne {past : Quad} {s : State} (h : s.ip ≠ past) : run past 0 s = .running s := by
  rw [run, if_neg h]

theorem standsAt_run (past : Quad) (n : Nat) (s : State) : StandsAt past s (run past n s) := by
  induction n generalizing s with
  | zero =>
    by_cases hip : s.ip = past
    · rw [run_of_ip_eq hip]
      exact ⟨hip, sameContext_refl s⟩
    · rw [run_zero_of_ip_ne hip]
      exact ⟨hip, sameContext_refl s⟩
  | succ n ih =>
    by_cases hip : s.ip = past
    · rw [run_of_ip_eq hip]
      exact ⟨hip, sameContext_refl s⟩
    · rw [run, if_neg hip]
      cases hstep : step s with
      | next t => exact standsAt_of_sameContext (sameContext_of_step hstep) (ih t)
      | fault f => exact ⟨hip, hstep, sameContext_refl s⟩
      | refused r => exact ⟨hip, hstep, sameContext_refl s⟩

end Sys2Proof.Machine

/-! ## The statements about every step: the invariant, the frame, runs; and the state after reset -/

namespace Sys2Proof

open Machine

/-- Settles O36: a step that completes is an execution, which keeps each part of the invariant. -/
theorem stepKeepsTheInvariant : Obligations.StepKeepsTheInvariant := by
  intro s t hs h
  obtain ⟨_, hexec⟩ := exec_of_step h
  exact inv_of_exec hs hexec

/-- Settles O37: each part of the invariant is computed for the fixed state. -/
theorem resetMeetsTheInvariant : Obligations.ResetMeetsTheInvariant := by
  refine ⟨?_, reset_mem_wf, ?_, ?_⟩ <;> decide

/-- Settles O38: the fields of the fixed state. -/
theorem resetHoldsTheFamilysValues : Obligations.ResetHoldsTheFamilysValues :=
  ⟨rfl, rfl, rfl, rfl, rfl, rfl, rfl, rfl, rfl, rfl⟩

/-- Settles O39: by induction on the bound, a step that completes keeping the context. -/
theorem runsEndWhereTheSpecSays : Obligations.RunsEndWhereTheSpecSays := by
  intro past n s
  have h := standsAt_run past n s
  generalize run past n s = e at h ⊢
  cases e <;> exact h

/-- Settles O21: the frame, and each bit outside the path's written ones. -/
theorem frameOfACompletedExecution : Obligations.FrameOfACompletedExecution := by
  refine fun i s t h => ⟨frame_of_exec h, fun k h16 hk => ?_⟩
  by_cases hl : VirtualLow s
  · rw [if_pos hl, vmeWritten_getLsbD, Bool.or_eq_false_iff, decide_eq_false_iff_not] at hk
    rw [rflags_of_exec_of_virtualLow h hl]
    exact flagsUnderVme_getLsbD_of_not_written h16 hk.2 hk.1 _ _
  · rw [if_neg hl] at hk
    rw [rflags_of_exec_of_not_virtualLow h hl]
    exact flagsUnder_getLsbD_of_not_mask hk h16 _ _

/-- Settles O23: the two halves of the stack-pointer register. -/
theorem stackPointerAdvancesByTheSizePopped : Obligations.StackPointerAdvancesByTheSizePopped := by
  intro i s t h
  obtain ⟨hlow, hhigh⟩ := merge_spMask s.rsp (s.rsp + BitVec.ofNat 64 i.size.bytes) s.stackAddrSize
  rw [rsp_of_exec h]
  refine ⟨hlow.trans ?_, hhigh⟩
  have hdvd : 2 ^ s.stackAddrSize.bits ∣ 2 ^ 64 := Nat.pow_dvd_pow 2 (width_bits_le _)
  rw [BitVec.toNat_add, BitVec.toNat_ofNat, Nat.mod_mod_of_dvd _ hdvd, Nat.add_mod, Nat.mod_mod_of_dvd _ hdvd,
    Nat.add_mod_mod]

/-- Settles O24: a ready instruction ends within the width of ip. -/
theorem ipAdvancesByTheLength : Obligations.IpAdvancesByTheLength :=
  fun _ _ _ h => ⟨ip_toNat_of_exec h, ip_lt_of_exec h⟩

end Sys2Proof

/-! ## The value popped, byte by byte -/

namespace Sys2Proof.Machine

/-- One more byte below a value put together little-endian. -/
theorem littleEndian_cons_eq_setWidth {n : Nat} {bs : List Byte} {v : BitVec n}
    (h : littleEndian bs = v.setWidth 64) (b : Byte) : littleEndian (b :: bs) = (v ++ b).setWidth 64 := by
  rw [littleEndian, h]
  refine BitVec.eq_of_getLsbD_eq fun k hk => ?_
  simp only [BitVec.getLsbD_or, BitVec.getLsbD_shiftLeft, BitVec.getLsbD_setWidth, BitVec.getLsbD_append, hk,
    decide_true, Bool.true_and]
  by_cases h8 : k < 8
  · simp [h8]
  · have hk' : k - 8 < 64 := by omega
    simp [h8, hk', BitVec.getLsbD_of_ge b k (by omega)]

variable (s : State)

theorem stackValue_w16 : s.stackValue .w16 = (s.stackByte 1 ++ s.stackByte 0).setWidth 64 := by
  have h1 : littleEndian [s.stackByte 1] = (s.stackByte 1).setWidth 64 := by simp [littleEndian]
  exact littleEndian_cons_eq_setWidth h1 _

theorem stackValue_w32 : s.stackValue .w32 =
    (s.stackByte 3 ++ s.stackByte 2 ++ s.stackByte 1 ++ s.stackByte 0).setWidth 64 := by
  have h3 : littleEndian [s.stackByte 3] = (s.stackByte 3).setWidth 64 := by simp [littleEndian]
  have h2 := littleEndian_cons_eq_setWidth h3 (s.stackByte 2)
  have h1 := littleEndian_cons_eq_setWidth h2 (s.stackByte 1)
  exact littleEndian_cons_eq_setWidth h1 _

theorem le_width_bits (size : Width) : 16 ≤ size.bits := by cases size <;> decide

/-- Bits 8 and 9 of every value popped stand in byte 1. -/
theorem stackValue_getLsbD_byte1 (size : Width) {k : Nat} (hk : k < 8) :
    (s.stackValue size).getLsbD (8 + k) = (s.stackByte 1).getLsbD k := by
  have hbits := le_width_bits size
  rw [stackValue_getLsbD _ _ _ (by omega), if_pos (by omega), show (8 + k) / 8 = 1 by omega,
    show (8 + k) % 8 = k by omega]

theorem stackValue_getLsbD_tf (size : Width) : (s.stackValue size).getLsbD 8 = (s.stackByte 1).getLsbD 0 :=
  stackValue_getLsbD_byte1 s size (k := 0) (by decide)

theorem stackValue_getLsbD_fi (size : Width) : (s.stackValue size).getLsbD 9 = (s.stackByte 1).getLsbD 1 :=
  stackValue_getLsbD_byte1 s size (k := 1) (by decide)

/-- The 64-bit value has the 32-bit one as its lower half. -/
theorem stackValue_w64_getLsbD {k : Nat} (hk : k < 32) :
    (s.stackValue .w64).getLsbD k = (s.stackValue .w32).getLsbD k := by
  have h64 : k < Width.w64.bits := Nat.lt_trans hk (by decide)
  have h32 : k < Width.w32.bits := hk
  rw [stackValue_getLsbD _ _ _ h64, stackValue_getLsbD _ _ _ h64, if_pos h64, if_pos h32]

end Sys2Proof.Machine

/-! ## Which bits of the value popped reach the flags -/

namespace Sys2Proof.Machine

/-- A 16-bit mask has neither AC nor ID. -/
theorem tableMask_w16_getLsbD_wide (s : State) : ∀ k ∈ [18, 21], (tableMask .w16 s).getLsbD k = false := by
  rw [tableMask, if_pos rfl]
  (repeat' split) <;> decide

/-- A mask has no bit past the size popped, nor past 32. -/
theorem lt_of_tableMask_getLsbD {size : Width} {s : State} {k : Nat} (h : (tableMask size s).getLsbD k = true) :
    k < size.bits ∧ k < 32 := by
  have hmem : k ∈ [0, 2, 4, 6, 7, 8, 9, 10, 11, 12, 13, 14, 18, 21] := by
    by_contra hk
    simp [tableMask_getLsbD_of_not_mem size s k hk] at h
  have hlt : ∀ k ∈ [0, 2, 4, 6, 7, 8, 9, 10, 11, 12, 13, 14, 18, 21], k < 32 ∧ (k ∉ [18, 21] → k < 16) := by
    decide
  obtain ⟨h32, h16⟩ := hlt k hmem
  refine ⟨?_, h32⟩
  cases size with
  | w16 => exact h16 fun hwide => by simp [tableMask_w16_getLsbD_wide s k hwide] at h
  | w32 => exact h32
  | w64 => exact Nat.lt_trans h32 (by decide)

theorem flagsUnder_congr {m t t' : Quad} (h : ∀ k, m.getLsbD k = true → t.getLsbD k = t'.getLsbD k) (o : Quad) :
    flagsUnder m o t = flagsUnder m o t' := by
  refine BitVec.eq_of_getLsbD_eq fun k _ => ?_
  rw [flagsUnder_getLsbD, flagsUnder_getLsbD]
  cases hm : m.getLsbD k with
  | false => simp
  | true => rw [h k hm]

theorem flagsUnderVme_congr {t t' : Quad} (h : ∀ k, (0x4FD5#64).getLsbD k = true → t.getLsbD k = t'.getLsbD k)
    (o : Quad) : flagsUnderVme o t = flagsUnderVme o t' := by
  refine BitVec.eq_of_getLsbD_eq fun k _ => ?_
  rw [flagsUnderVme_getLsbD, flagsUnderVme_getLsbD, h 9 (by decide)]
  cases hm : (0x4DD5#64).getLsbD k with
  | false => simp
  | true =>
    have hbase : (0x4FD5#64).getLsbD k = true := by
      rw [show (0x4FD5#64) = 0x4DD5#64 ||| 0x200#64 from rfl, BitVec.getLsbD_or, hm, Bool.true_or]
    rw [h k hbase]

/-- POPFQ takes the flags from the lower four bytes (90_conflicts.md C7). -/
theorem flagsUnder_stackValue_w64 (s : State) (o : Quad) :
    flagsUnder (tableMask .w64 s) o (s.stackValue .w64) = flagsUnder (tableMask .w64 s) o (s.stackValue .w32) :=
  flagsUnder_congr (fun _ hk => stackValue_w64_getLsbD s (lt_of_tableMask_getLsbD hk).2) o

end Sys2Proof.Machine

/-! ## The state after an execution that completes, in full -/

namespace Sys2Proof.Machine

/-- An admitted execution outside virtual-8086 mode with IOPL < 3. -/
theorem exec_of_not_virtualLow {i : Instr} {s : State} (hr : Ready i s) (hlock : Pfx.lock ∉ i.prefixes)
    (ha : Admits i.size s) (hl : ¬ VirtualLow s) :
    exec i s = .next { s with
      rflags := flagsUnder (tableMask i.size s) s.rflags (s.stackValue i.size)
      rsp := s.popSp i.size
      ip := s.ip + BitVec.ofNat 64 (i.prefixes.length + 1) } := by
  obtain ⟨t, ht⟩ := completes_of_not_virtualLow hr hlock ha hl
  rw [ht, frame_of_exec ht, rflags_of_exec_of_not_virtualLow ht hl, rsp_of_exec ht, ip_of_exec ht]

/-- On the VME path an admitted execution completes for a value that passes the test. -/
theorem completes_of_onVmePath {i : Instr} {s : State} (hr : Ready i s) (hlock : Pfx.lock ∉ i.prefixes)
    (ha : Admits i.size s) (hp : OnVmePath i.size s)
    (hvip : ¬(s.vip = true ∧ (s.stackValue i.size).getLsbD 9 = true))
    (htf : (s.stackValue i.size).getLsbD 8 = false) :
    Completes i s := by
  obtain ⟨-, hvme, hsize⟩ := hp
  have hguard : guardFault i.size s = none := by
    rw [guardFault_eq, if_neg]
    simp [hvme, hsize]
  have hval : valueFault s (s.stackValue i.size) = none := by
    rw [valueFault_eq, if_neg]
    simp only [htf, Bool.false_eq_true, or_false]
    exact fun h => hvip h.2
  exact ⟨_, (exec_eq_next_iff _ _ _).2 ⟨hr, hlock, hguard, ha, hval, rfl⟩⟩

/-! ### What a change of IOPL or of IF tells -/

theorem vm_of_mode_eq_v86 {s : State} (h : LaunchPremises s) (hm : s.mode = .v86) : s.vm = true := by
  obtain ⟨-, hv86, -⟩ := h
  exact (hv86.1 hm).2

/-- The VME path keeps IOPL. -/
theorem iopl_of_exec_of_virtualLow {i : Instr} {s t : State} (h : exec i s = .next t) (hl : VirtualLow s) :
    t.iopl = s.iopl := by
  have hkeep : ∀ k ∈ [12, 13], t.rflags.getLsbD k = s.rflags.getLsbD k := by
    intro k hk
    rw [rflags_of_exec_of_virtualLow h hl]
    rcases List.mem_pair.1 hk with rfl | rfl <;>
      exact flagsUnderVme_getLsbD_of_not_written (by decide) (by decide) (by decide) _ _
  exact ioplOf_congr (hkeep 12 (by decide)) (hkeep 13 (by decide))

/-- The VME path keeps IF. -/
theorem if_of_exec_of_virtualLow {i : Instr} {s t : State} (h : exec i s = .next t) (hl : VirtualLow s) :
    t.rflags.getLsbD 9 = s.rflags.getLsbD 9 := by
  rw [rflags_of_exec_of_virtualLow h hl]
  exact flagsUnderVme_getLsbD_of_not_written (by decide) (by decide) (by decide) _ _

theorem mode_of_iopl_changed {i : Instr} {s t : State} (h : exec i s = .next t) (hiopl : t.iopl ≠ s.iopl) :
    s.mode = .real ∨ s.mode ≠ .v86 ∧ s.cpl = 0#2 := by
  have hl : ¬ VirtualLow s := fun hl => hiopl (iopl_of_exec_of_virtualLow h hl)
  rw [iopl_of_not_virtualLow h hl] at hiopl
  have hlevel : s.level = 0#2 := by
    by_contra hz
    exact hiopl (if_neg hz)
  obtain ⟨hr, -⟩ := exec_next_cases h
  refine ((level_eq_zero_iff hr.1).1 hlevel).imp_right fun ⟨hvm, hcpl⟩ => ⟨fun hm => ?_, hcpl⟩
  rw [vm_of_mode_eq_v86 hr.1 hm] at hvm
  cases hvm

theorem level_of_if_changed {i : Instr} {s t : State} (h : exec i s = .next t)
    (hif : t.rflags.getLsbD 9 ≠ s.rflags.getLsbD 9) : s.mode = .real ∨ s.cpl ≤ s.iopl := by
  have hl : ¬ VirtualLow s := fun hl => hif (if_of_exec_of_virtualLow h hl)
  rw [rflags_getLsbD_of_not_virtualLow h hl (by decide), levelMask_getLsbD_fi] at hif
  have hlevel : s.level ≤ s.iopl := by
    by_contra hn
    exact hif (if_neg (by simpa using hn))
  obtain ⟨hr, -⟩ := exec_next_cases h
  rw [level_eq hr.1] at hlevel
  by_cases hm : s.mode = .real
  · exact .inl hm
  · exact .inr (by rwa [if_neg hm] at hlevel)

end Sys2Proof.Machine

/-! ## The statements of 40_popf.md: what each of the three instructions does -/

namespace Sys2Proof

open Machine

/-- Settles O8: the general form at 16 bits. -/
theorem popfCompletes : Obligations.PopfCompletes := by
  intro pre s hr hlock ha hl
  rw [← stackValue_w16]
  exact exec_of_not_virtualLow hr hlock ha hl

/-- Settles O9: the general form at 32 bits. -/
theorem popfdCompletes : Obligations.PopfdCompletes := by
  intro pre s hr hlock ha hl
  rw [← stackValue_w32]
  exact exec_of_not_virtualLow hr hlock ha hl

/-- Settles O10: the general form at 64 bits, whose masks have no bit above the lower half; the size is only encoded in
64-bit mode. -/
theorem popfqCompletes : Obligations.PopfqCompletes := by
  intro pre s hr hlock ha
  have hmode : s.mode = .long64 := hr.2.1.2 rfl
  have hl : ¬ VirtualLow s := fun hl => absurd (hmode.symm.trans hl.1) (by decide)
  rw [← stackValue_w32, ← flagsUnder_stackValue_w64]
  exact exec_of_not_virtualLow hr hlock ha hl

/-- Settles O11: byte 1 holds the two bits that the value test reads. -/
theorem popfCompletesOnTheVmePath : Obligations.PopfCompletesOnTheVmePath := by
  intro pre s hr hlock ha hl hvme hvip htf
  rw [← stackValue_getLsbD_fi s .w16] at hvip
  rw [← stackValue_getLsbD_tf s .w16] at htf
  obtain ⟨t, ht⟩ := completes_of_onVmePath (i := .popf pre) hr hlock ha ⟨hl, hvme, rfl⟩ hvip htf
  rw [← stackValue_w16, ht, frame_of_exec ht, rflags_of_exec_of_virtualLow ht hl, rsp_of_exec ht, ip_of_exec ht]
  rfl

/-- Settles O25: a bit of the value is a bit of a byte read, and that byte's address is known as a number. -/
theorem valuePoppedIsLittleEndianAtSp : Obligations.ValuePoppedIsLittleEndianAtSp := by
  intro s size k
  have hbits := width_bits_le size
  constructor
  · intro hk
    rw [stackValue_getLsbD _ _ _ (by omega), if_pos hk, State.stackByte, State.byteAt, stackAddress_toNat]
  · intro hk
    by_cases h64 : k < 64
    · rw [stackValue_getLsbD _ _ _ h64, if_neg (by omega)]
    · exact BitVec.getLsbD_of_ge _ _ (by omega)

/-- Settles O18: each of the two changes tells the level. -/
theorem onlyPrivilegeChangesIoplAndIf : Obligations.OnlyPrivilegeChangesIoplAndIf := by
  intro i s t h
  have hframe := frame_of_exec h
  exact ⟨mode_of_iopl_changed h, level_of_if_changed h, by rw [hframe], by rw [hframe]⟩

/-- Settles O29: a bit is kept, or it comes from the value popped, which holds it already. -/
theorem poppingTheHeldValueChangesOnlyRfAndOnTheVmePathVif :
    Obligations.PoppingTheHeldValueChangesOnlyRfAndOnTheVmePathVif := by
  intro i s t h hheld k h16 h19
  by_cases hl : VirtualLow s
  · rw [rflags_of_exec_of_virtualLow h hl, flagsUnderVme_getLsbD, if_neg h16,
      if_neg (h19.resolve_right (not_not.2 hl))]
    by_cases hbase : (0x4DD5#64).getLsbD k = true
    · have hk : k < i.size.bits := by
        refine Nat.lt_of_lt_of_le ?_ (le_width_bits i.size)
        by_contra hge
        have hmem : k ∉ [0, 2, 4, 6, 7, 8, 10, 11, 14] := by
          simp only [List.mem_cons, List.not_mem_nil, or_false]
          omega
        simp [base_getLsbD_of_not_mem k hmem] at hbase
      rw [if_pos hbase, hheld k hk]
    · rw [if_neg hbase]
  · rw [rflags_of_exec_of_not_virtualLow h hl, flagsUnder_getLsbD, if_neg h16]
    by_cases hmask : (tableMask i.size s).getLsbD k = true
    · rw [if_pos hmask, hheld k (lt_of_tableMask_getLsbD hmask).1]
    · rw [if_neg hmask]

end Sys2Proof

/-! ## The page's Operation

Each branch of the Operation that pops under a comment lets the bits of some level's mask be modified; only the 16-bit
branch for CPL > 0 adds IF (90_conflicts.md C4). -/

namespace Sys2Proof.Machine

theorem operationPrivileged_eq (size : Width) (iopl : BitVec 2) :
    operationPrivileged size = .popped (levelMask size 0#2 iopl) (size != .w16) := by
  revert iopl
  cases size <;> decide

theorem operationUnprivileged_eq (size : Width) {cpl : BitVec 2} (h : cpl ≠ 0#2) (iopl : BitVec 2) :
    operationUnprivileged size cpl iopl =
      .popped (levelMask size cpl iopl ||| if size = .w16 then 0x200#64 else 0#64) (size != .w16) := by
  revert cpl iopl
  cases size <;> decide

/-- Withholding IF undoes what the 16-bit branch adds. -/
theorem levelMask_or_fi_withheld {cpl iopl : BitVec 2} (size : Width) (h : cpl ≠ 0#2) :
    (if size = .w16 ∧ iopl < cpl then
        (levelMask size cpl iopl ||| if size = .w16 then 0x200#64 else 0#64) &&& ~~~0x200#64
      else levelMask size cpl iopl ||| if size = .w16 then 0x200#64 else 0#64) = levelMask size cpl iopl := by
  revert cpl iopl
  cases size <;> decide

theorem operationVirtual_of_iopl3 {size : Width} (h : size ≠ .w64) (vme vip : Bool) (t : Quad) :
    operationVirtual size 3#2 vme vip t = .popped (levelMask size 3#2 3#2) (size != .w16) := by
  cases size with
  | w16 => rfl
  | w32 => rfl
  | w64 => exact absurd rfl h

/-- What the Operation does in a state, for the value `t`. -/
def operationAt (size : Width) (s : State) (t : Quad) : BranchEffect :=
  operation s.vm s.cr0PE s.cr4VME s.vip s.cpl s.iopl size t

section Operation
variable {size : Width} {s : State} (h : LaunchPremises s)
include h

theorem operationAt_of_v86 (hm : s.mode = .v86) (t : Quad) :
    operationAt size s t = operationVirtual size s.iopl s.cr4VME s.vip t := by
  rw [operationAt, operation, vm_of_mode_eq_v86 h hm, if_pos rfl]

theorem operationAt_of_guard (hl : VirtualLow s) (hg : size = .w32 ∨ s.cr4VME = false) (t : Quad) :
    operationAt size s t = .gp0 := by
  obtain ⟨hm, hiopl⟩ := hl
  rw [operationAt_of_v86 h hm, operationVirtual, if_neg (BitVec.ne_of_lt hiopl), if_pos hg]

theorem operationAt_of_onVmePath (hp : OnVmePath size s) (t : Quad) :
    operationAt size s t =
      if (s.vip = true ∧ t.getLsbD 9 = true) ∨ t.getLsbD 8 = true then .gp0AfterPop else .vmeBranch 0x4DD5#64 := by
  obtain ⟨⟨hm, hiopl⟩, hvme, rfl⟩ := hp
  rw [operationAt_of_v86 h hm, operationVirtual, if_neg (BitVec.ne_of_lt hiopl), if_neg (by simp [hvme])]
  rfl

/-- Virtual-8086 mode with IOPL = 3: the mask of level 3. -/
theorem operationAt_of_v86_iopl3 (hs : SizeEncodable s.mode size) (hm : s.mode = .v86) (hiopl : s.iopl = 3#2)
    (t : Quad) : operationAt size s t = .popped (levelMask size s.level s.iopl) (size != .w16) := by
  have hsize : size ≠ .w64 := fun hw => absurd (hm.symm.trans (hs.2 hw)) (by decide)
  have hlevel : s.level = 3#2 := by
    obtain ⟨-, -, -, -, hcpl, -⟩ := id h
    rw [level_eq h, hm, if_neg (by decide), hcpl hm]
  rw [operationAt_of_v86 h hm, hlevel, hiopl, operationVirtual_of_iopl3 hsize]

/-- The branch "CPL = 0 OR CR0.PE = 0": the mask of level 0. -/
theorem operationAt_of_level0 (hz : s.level = 0#2) (hm : s.mode ≠ .v86) (t : Quad) :
    operationAt size s t = .popped (levelMask size s.level s.iopl) (size != .w16) := by
  obtain ⟨hreal, hv86, -, hvmpe, -⟩ := id h
  have hvm : s.vm = false := by
    by_contra hvm
    rw [Bool.not_eq_false] at hvm
    have hpe : s.cr0PE = true := by simpa [hvm] using hvmpe
    exact hm (hv86.2 ⟨hpe, hvm⟩)
  have hpriv : s.cpl = 0#2 ∨ s.cr0PE = false := by
    rw [← hreal]
    exact ((level_eq_zero_iff h).1 hz).symm.imp_left And.right
  rw [operationAt, operation, hvm, if_neg Bool.false_ne_true, if_pos hpriv, hz, operationPrivileged_eq]

/-- The branch "CPL > 0": the mask of that level, and IF too at 16 bits. -/
theorem operationAt_of_level_ne_zero (hz : s.level ≠ 0#2) (hm : s.mode ≠ .v86) (t : Quad) :
    s.level = s.cpl ∧ s.vm = false ∧ s.cr0PE = true ∧
    operationAt size s t =
      .popped (levelMask size s.level s.iopl ||| if size = .w16 then 0x200#64 else 0#64) (size != .w16) := by
  obtain ⟨hreal, hv86, -⟩ := id h
  have hm' : s.mode ≠ .real := fun hm' => hz ((level_eq_zero_iff h).2 (.inl hm'))
  have hpe : s.cr0PE = true := by simpa [hm'] using hreal
  have hvm : s.vm = false := by simpa [hm, hpe] using hv86
  have hlevel : s.level = s.cpl := by rw [level_eq h, if_neg hm']
  refine ⟨hlevel, hvm, hpe, ?_⟩
  rw [hlevel] at hz ⊢
  rw [operationAt, operation, hvm, hpe, if_neg Bool.false_ne_true, if_neg (by simp [hz]), operationUnprivileged_eq _ hz]

/-- Outside virtual-8086 mode with IOPL < 3 the Operation pops under a comment, which lets the bits of the level's mask
be modified where the shortfall C4 is made good. -/
theorem operationAt_of_not_virtualLow (hs : SizeEncodable s.mode size) (hl : ¬ VirtualLow s) (t : Quad) :
    ∃ may, operationAt size s t = .popped may (size != .w16) ∧
      (if size = .w16 ∧ s.cr0PE = true ∧ s.vm = false ∧ s.iopl < s.cpl then may &&& ~~~0x200#64 else may) =
        levelMask size s.level s.iopl := by
  by_cases hm : s.mode = .v86
  · have hlast : ∀ x : BitVec 2, ¬ x < 3#2 → x = 3#2 := by decide
    have hiopl : s.iopl = 3#2 := hlast _ fun hlt => hl ⟨hm, hlt⟩
    exact ⟨_, operationAt_of_v86_iopl3 h hs hm hiopl t, if_neg (by simp [vm_of_mode_eq_v86 h hm])⟩
  · by_cases hz : s.level = 0#2
    · refine ⟨_, operationAt_of_level0 h hz hm t, if_neg ?_⟩
      rintro ⟨-, hpe, -, hlt⟩
      rw [State.level, if_pos hpe] at hz
      simp [hz] at hlt
    · obtain ⟨hlevel, hvm, hpe, hop⟩ := operationAt_of_level_ne_zero h hz hm t
      refine ⟨_, hop, ?_⟩
      rw [hlevel] at hz ⊢
      simpa only [hvm, hpe, true_and] using levelMask_or_fi_withheld size hz

end Operation

/-- Past the guard, virtual-8086 mode with IOPL < 3 is the VME path. -/
theorem onVmePath_of_not_guard {size : Width} {s : State} (hs : SizeEncodable s.mode size) (hl : VirtualLow s)
    (hg : ¬(size = .w32 ∨ s.cr4VME = false)) : OnVmePath size s := by
  obtain ⟨h32, hvme⟩ := not_or.1 hg
  refine ⟨hl, by simpa using hvme, ?_⟩
  cases size with
  | w16 => rfl
  | w32 => exact absurd rfl h32
  | w64 => exact absurd (hl.1.symm.trans (hs.2 rfl)) (by decide)

/-- Where an execution could only raise, none completes. -/
theorem not_completes_of_fault {i : Instr} {s : State} {f : Fault}
    (h : Ready i s → Pfx.lock ∉ i.prefixes → Admits i.size s → exec i s = .fault f) : ¬ Completes i s := by
  rintro ⟨t, ht⟩
  obtain ⟨hr, hlock, -, ha, -⟩ := (exec_eq_next_iff _ _ _).1 ht
  exact absurd (ht.symm.trans (h hr hlock ha)) nofun

end Sys2Proof.Machine

/-! ## The statement about the page's Operation -/

namespace Sys2Proof

open Machine

/-- Settles O13: the Operation takes one of three paths, and on each the execution is known. -/
theorem operationAgreesButForItsShortfalls : Obligations.OperationAgreesButForItsShortfalls := by
  intro i s h hs
  rw [← operationAt]
  by_cases hl : VirtualLow s
  · by_cases hg : i.size = .w32 ∨ s.cr4VME = false
    · have hgp (hr : Ready i s) (hlock : Pfx.lock ∉ i.prefixes) := exec_eq_gp_of_guard hr hlock hl hg
      rw [operationAt_of_guard h hl hg]
      exact ⟨fun hip => hgp ⟨h, hs, hip⟩, not_completes_of_fault fun hr hlock _ => hgp hr hlock⟩
    · have hp : OnVmePath i.size s := onVmePath_of_not_guard hs hl hg
      have hsize : i.size = .w16 := hp.2.2
      rw [operationAt_of_onVmePath h hp]
      by_cases hv : (s.vip = true ∧ (s.stackValue i.size).getLsbD 9 = true) ∨ (s.stackValue i.size).getLsbD 8 = true
      · have hgp (hr : Ready i s) (hlock : Pfx.lock ∉ i.prefixes) (ha : Admits i.size s) :=
          exec_eq_gp_of_value hr hlock hp ha hv
        rw [if_pos hv]
        exact ⟨hsize, fun hip hlock ha => hgp ⟨h, hs, hip⟩ hlock (hsize ▸ ha), not_completes_of_fault hgp⟩
      · rw [if_neg hv]
        refine ⟨hsize, fun t ht => ?_⟩
        rw [rflags_of_exec_of_virtualLow ht hl, hsize]
        rfl
  · obtain ⟨may, hop, hmay⟩ := operationAt_of_not_virtualLow h hs hl (s.stackValue i.size)
    rw [hop]
    refine ⟨by simp, fun t ht => ?_⟩
    rw [hmay, rflags_of_not_virtualLow ht hl]

end Sys2Proof

/-! ## A state with other memory, another CPL, another CR4.VME

Two executions give the same outcome when their launch checks and pops agree; each field is read in few places. -/

namespace Sys2Proof.Machine

theorem getLsbD_eq_of_xor_and_eq_zero {x y m : Quad} (h : (x ^^^ y) &&& m = 0#64) {k : Nat}
    (hk : m.getLsbD k = true) : x.getLsbD k = y.getLsbD k := by
  have hbit : ((x ^^^ y) &&& m).getLsbD k = false := by rw [h, BitVec.getLsbD_zero]
  rw [BitVec.getLsbD_and, BitVec.getLsbD_xor, hk, Bool.and_true] at hbit
  simpa using hbit

/-- An execution that pops the same value from two states, or raises the same exception, and whose new flags agree. -/
theorem exec_mapNext_of_pop_eq {i : Instr} {s s' : State} {f : State → State}
    (hlaunch : launchRefusal i.size (i.prefixes.length + 1) s' = launchRefusal i.size (i.prefixes.length + 1) s)
    (hpop : Ready i s → popOrRaise i.size i.prefixes s' = popOrRaise i.size i.prefixes s)
    (hcommit : Ready i s → ∀ t,
      s'.commit (newFlags i.size s' t) (s'.popSp i.size) (s'.ip + BitVec.ofNat 64 (i.prefixes.length + 1)) =
        f (s.commit (newFlags i.size s t) (s.popSp i.size) (s.ip + BitVec.ofNat 64 (i.prefixes.length + 1)))) :
    exec i s' = mapNext f (exec i s) := by
  refine exec_mapNext hlaunch fun hr => ?_
  cases h : popOrRaise i.size i.prefixes s with
  | error e => exact .inl ⟨e, rfl, (hpop hr).trans h⟩
  | ok t => exact .inr ⟨t, t, rfl, (hpop hr).trans h, hcommit hr t⟩

/-! ### CPL in real-address mode -/

theorem level_eq_zero_of_real {s : State} (hpe : s.cr0PE = false) : s.level = 0#2 := by
  rw [State.level, hpe, if_neg Bool.false_ne_true]

theorem alignCheckApplies_of_real {s : State} (hm : s.mode = .real) : s.alignCheckApplies = false := by
  rw [State.alignCheckApplies, hm]

theorem exec_withCpl_of_real {i : Instr} {s : State} (hm : s.mode = .real) (c : BitVec 2) :
    exec i { s with cpl := c } = mapNext (fun t => { t with cpl := c }) (exec i s) := by
  have hstack : ({ s with cpl := c } : State).stackFault i.size = s.stackFault i.size := by
    simp only [State.stackFault, alignCheckApplies_of_real hm,
      alignCheckApplies_of_real (s := { s with cpl := c }) hm]
    rfl
  refine exec_mapNext_of_pop_eq ?_ (fun _ => ?_) (fun hr t => ?_)
  · simp only [launchRefusal, State.modeConsistent, hm]
    rfl
  · simp only [popOrRaise, State.stackRead, hstack]
    rfl
  · have hpe : s.cr0PE = false := hr.1.1.1 hm
    have hflags : newFlags i.size { s with cpl := c } t = newFlags i.size s t := by
      simp only [newFlags, level_eq_zero_of_real hpe, level_eq_zero_of_real (s := { s with cpl := c }) hpe]
      rfl
    rw [hflags]
    rfl

/-! ### CR4.VME outside virtual-8086 mode with IOPL < 3 -/

theorem exec_withVme_of_not_virtualLow {i : Instr} {s : State} (hl : ¬ VirtualLow s) (hhas : s.hasVME = true)
    (b : Bool) : exec i { s with cr4VME := b } = mapNext (fun t => { t with cr4VME := b }) (exec i s) := by
  refine exec_mapNext_of_pop_eq ?_ (fun hr => ?_) (fun _ _ => rfl)
  · simp only [launchRefusal, hhas, Bool.not_true, Bool.and_false]
    rfl
  · have hv : s.v86Low = false := by simpa using mt (v86Low_iff hr.1).1 hl
    have hguard : guardFault i.size { s with cr4VME := b } = guardFault i.size s := by
      have hv' : ({ s with cr4VME := b } : State).v86Low = false := hv
      simp only [guardFault, hv, hv', Bool.false_and]
    simp only [popOrRaise, hguard]
    rfl

/-! ### Memory that gives the same bits under the mask -/

/-- The bits of the value popped that can have an effect: the mask, or on the VME path `BASE` and bit 9. -/
def bitsRead (size : Width) (s : State) : Quad := if VirtualLow s then 0x4FD5#64 else tableMask size s

theorem newFlags_congr {i : Instr} {s : State} (hr : Ready i s) {t t' : Quad}
    (h : ∀ k, (bitsRead i.size s).getLsbD k = true → t.getLsbD k = t'.getLsbD k) :
    newFlags i.size s t = newFlags i.size s t' := by
  rw [bitsRead] at h
  by_cases hl : VirtualLow s
  · rw [if_pos hl] at h
    rw [newFlags_of_low hr hl, newFlags_of_low hr hl, flagsUnderVme_congr h]
  · rw [if_neg hl] at h
    rw [newFlags_of_not_low hr hl, newFlags_of_not_low hr hl, flagsUnder_congr h]

theorem valueFault_congr {i : Instr} {s : State} (hr : Ready i s) {t t' : Quad}
    (h : ∀ k, (bitsRead i.size s).getLsbD k = true → t.getLsbD k = t'.getLsbD k) :
    valueFault s t = valueFault s t' := by
  by_cases hl : VirtualLow s
  · rw [bitsRead, if_pos hl] at h
    rw [valueFault_eq, valueFault_eq, h 9 (by decide), h 8 (by decide)]
  · have hv : ¬ s.v86Low = true := mt (v86Low_iff hr.1).1 hl
    rw [valueFault_eq, valueFault_eq, if_neg (fun hf => hv hf.1), if_neg (fun hf => hv hf.1)]

theorem exec_withMem {i : Instr} {s : State} {m : Memory}
    (h : ∀ k, (bitsRead i.size s).getLsbD k = true →
      (s.stackValue i.size).getLsbD k = (({ s with mem := m } : State).stackValue i.size).getLsbD k) :
    exec i { s with mem := m } = mapNext (fun t => { t with mem := m }) (exec i s) := by
  refine exec_mapNext rfl fun hr => ?_
  have hvalue (t : Quad) : valueFault { s with mem := m } t = valueFault s t := rfl
  have hstack : ({ s with mem := m } : State).stackFault i.size = s.stackFault i.size := rfl
  cases hpop : popOrRaise i.size i.prefixes s with
  | ok t =>
    obtain ⟨hlock, hguard, hread, hval, rfl⟩ := (popOrRaise_eq_ok_iff _ _ _ _).1 hpop
    refine .inr ⟨_, _, rfl, (popOrRaise_eq_ok_iff _ _ _ _).2 ⟨hlock, hguard, hread, ?_, rfl⟩, ?_⟩
    · rw [hvalue, ← valueFault_congr hr h, hval]
    · rw [newFlags_congr hr h]
      rfl
  | error e =>
    refine .inl ⟨e, rfl, ?_⟩
    rw [popOrRaise_eq_error_iff] at hpop ⊢
    rw [hvalue, hstack, ← valueFault_congr hr h]
    exact hpop

end Sys2Proof.Machine

/-! ## The statements of noninterference -/

namespace Sys2Proof

open Machine

/-- Settles O26: the value test and the new flags read the value popped under the mask alone. -/
theorem bitsOutsideTheMaskAreIgnored : Obligations.BitsOutsideTheMaskAreIgnored :=
  fun _ _ _ h => exec_withMem fun _ hk => getLsbD_eq_of_xor_and_eq_zero h hk

/-- Settles O27: the level is 0 there and alignment is not checked. -/
theorem realModeIgnoresTheCplField : Obligations.RealModeIgnoresTheCplField :=
  fun _ _ c hm => exec_withCpl_of_real hm c

/-- Settles O28: only the guard reads CR4.VME, and it does not apply. -/
theorem vmeMattersOnlyInVirtualModeBelowIopl3 : Obligations.VmeMattersOnlyInVirtualModeBelowIopl3 :=
  fun _ _ b hl hhas => exec_withVme_of_not_virtualLow hl hhas b

end Sys2Proof

/-! ## Which exception an execution raises -/

namespace Sys2Proof.Machine

theorem ssFault_eq (m : Mode) : ssFault m = .ss (if m = .real then none else some 0) := by
  cases m <;> rfl

theorem exec_eq_ud_of_lock {i : Instr} {s : State} (hr : Ready i s) (h : Pfx.lock ∈ i.prefixes) :
    exec i s = .fault .ud :=
  (exec_eq_fault_iff _ _ _).2 ⟨hr, (popOrRaise_eq_error_iff _ _ _ _).2 (.inl ⟨h, rfl⟩)⟩

/-- The cause of an exception, with the code it carries. -/
def FaultCause (i : Instr) (s : State) : Fault → Prop
  | .ud => Pfx.lock ∈ i.prefixes
  | .ss code => code = (if s.mode = .real then none else some 0) ∧ s.stackQuery i.size ∈ s.ssFaults
  | .pf code => s.mode ≠ .real ∧ (s.stackQuery i.size, code) ∈ s.pageFaults
  | .ac code => code = 0 ∧ s.alignCheckApplies = true ∧ s.unaligned i.size = true
  | .gp code => code = 0 ∧ VirtualLow s ∧
      (i.size = .w32 ∨ s.cr4VME = false ∨ s.vip = true ∧ (s.stackValue i.size).getLsbD 9 = true ∨
        (s.stackValue i.size).getLsbD 8 = true)

/-- Whatever is raised has its cause: one for each exception. -/
theorem faultCause_of_exec {i : Instr} {s : State} {f : Fault} (h : exec i s = .fault f) : FaultCause i s f := by
  obtain ⟨-, ⟨rfl, hlock⟩ | ⟨rfl, hlow⟩ | ⟨rfl, hss⟩ | ⟨rfl, hac⟩ | ⟨hm, c, rfl, hpf⟩⟩ := exec_fault_cases h
  · exact hlock
  · exact ⟨rfl, hlow⟩
  · rw [ssFault_eq]
    exact ⟨rfl, hss⟩
  · exact ⟨rfl, hac⟩
  · exact ⟨hm, hpf⟩

theorem launchPremises_of_fault {i : Instr} {s : State} {f : Fault} (h : exec i s = .fault f) : LaunchPremises s := by
  obtain ⟨⟨hlaunch, -⟩, -⟩ := exec_fault_cases h
  exact hlaunch

/-- Without LOCK and past the guard, the exception of the stack read is the execution's. -/
theorem exec_eq_fault_of_stackFault {i : Instr} {s : State} {f : Fault} (hr : Ready i s)
    (hlock : Pfx.lock ∉ i.prefixes) (hg : ¬(VirtualLow s ∧ (i.size = .w32 ∨ s.cr4VME = false)))
    (hf : s.stackFault i.size = some f) : exec i s = .fault f := by
  have hguard : guardFault i.size s = none := by
    rw [guardFault_eq, if_neg (mt (And.imp_left (v86Low_iff hr.1).1) hg)]
  exact (exec_eq_fault_iff _ _ _).2
    ⟨hr, (popOrRaise_eq_error_iff _ _ _ _).2 (.inr (.inr (.inl ⟨hlock, hguard, hf⟩)))⟩

section StackReadFaults
variable {i : Instr} {s : State} (hr : Ready i s) (hlock : Pfx.lock ∉ i.prefixes)
  (hg : ¬(VirtualLow s ∧ (i.size = .w32 ∨ s.cr4VME = false)))
include hr hlock hg

theorem exec_eq_ss (hss : s.stackQuery i.size ∈ s.ssFaults) :
    exec i s = .fault (.ss (if s.mode = .real then none else some 0)) := by
  refine exec_eq_fault_of_stackFault hr hlock hg ?_
  rw [State.stackFault, if_pos hss, ssFault_eq]

theorem exec_eq_ac (hss : s.stackQuery i.size ∉ s.ssFaults) (happlies : s.alignCheckApplies = true)
    (hunaligned : s.unaligned i.size = true) : exec i s = .fault (.ac 0) := by
  refine exec_eq_fault_of_stackFault hr hlock hg ?_
  rw [State.stackFault, if_neg hss, happlies, hunaligned, Bool.and_true, if_pos rfl]

theorem exec_eq_pf (hss : s.stackQuery i.size ∉ s.ssFaults)
    (hac : ¬(s.alignCheckApplies = true ∧ s.unaligned i.size = true)) (hm : s.mode ≠ .real)
    {p : Access × ErrorCode} (hp : s.pageFaults.find? (fun p => p.1 == s.stackQuery i.size) = some p) :
    exec i s = .fault (.pf p.2) := by
  refine exec_eq_fault_of_stackFault hr hlock hg ?_
  rw [State.stackFault, if_neg hss, if_neg (by simpa using hac), if_neg hm, pageFaultCode_eq_find, hp]
  rfl

end StackReadFaults

/-! ### When alignment checking applies -/

theorem alignCheckApplies_iff {s : State} (h : LaunchPremises s) :
    s.alignCheckApplies = true ↔
      s.mode ≠ .real ∧ (s.mode = .v86 ∨ s.cpl = 3#2) ∧ s.alignCheckEnabled = true := by
  have hlevel := level_eq h
  unfold State.alignCheckApplies
  cases hm : s.mode <;> simp_all

/-- Under the default `AlignCheckEnabled` (20_memory.md R35). -/
theorem alignCheckEnabled_default {s : State} (h : LaunchPremises s) (hm : s.mode ≠ .real)
    (hd : s.alignCheck = none) :
    s.alignCheckEnabled = true ↔ s.cr0AM = true ∧ s.ac = true ∧ s.cpl = 3#2 := by
  rw [State.alignCheckEnabled, hd, level_eq h, if_neg hm]
  simp [and_assoc]

theorem alignCheckEnabled_fixed {s : State} {b : Bool} (h : s.alignCheck = some b) : s.alignCheckEnabled = b := by
  rw [State.alignCheckEnabled, h]

theorem unaligned_iff (s : State) (size : Width) :
    s.unaligned size = true ↔
      (s.stackBase.toNat + s.rsp.toNat % 2 ^ s.stackAddrSize.bits) % 2 ^ 64 % size.bytes ≠ 0 := by
  rw [State.unaligned, stackAddress_toNat, Nat.add_zero, bne_iff_ne]

end Sys2Proof.Machine

/-! ## The matrix of modes and exceptions: a state for each yes -/

namespace Sys2Proof.Machine

/-- A launch state of each mode at CPL 3 with a stack pointer of 1, which is unaligned, and the answers of the launch
given; in virtual-8086 mode IOPL is 3 or, if `low`, 0. -/
def matrixState (m : Mode) (low ac : Bool) (ss : List Access) (pf : List (Access × ErrorCode)) : State :=
  { State.reset with
    mode := m
    cr0PE := m != .real
    cpl := 3#2
    rflags := if m = .v86 then (if low then 0x20002#64 else 0x23002#64) else 0x2#64
    rsp := 1#64
    ip := 0#64
    stackAddrSize := if m = .long64 then .w64 else .w16
    alignCheck := some ac
    ssFaults := ss
    pageFaults := pf }

section MatrixState
variable (m : Mode) (low ac : Bool) (ss : List Access) (pf : List (Access × ErrorCode))

theorem matrixState_launchPremises : LaunchPremises (matrixState m low ac ss pf) := by
  change LaunchPremises (matrixState m low false [] [])
  cases m <;> cases low <;> decide

theorem matrixState_ready {pre : List Pfx} (hpre : pre.length ≤ 1) :
    Ready (.popf pre) (matrixState m low ac ss pf) := by
  refine ⟨matrixState_launchPremises m low ac ss pf, ⟨nofun, nofun⟩, ?_⟩
  have hwidth : 2 ^ 16 ≤ 2 ^ (ipWidth m).bits := Nat.pow_le_pow_right (by decide) (le_width_bits _)
  change 0 + (pre.length + 1) < 2 ^ (ipWidth m).bits
  omega

/-- With IOPL 3 the guard does not apply. -/
theorem matrixState_not_guard : ¬(VirtualLow (matrixState m false ac ss pf) ∧
    (Width.w16 = .w32 ∨ (matrixState m false ac ss pf).cr4VME = false)) := by
  rintro ⟨⟨hm, hiopl⟩, -⟩
  obtain rfl : m = .v86 := hm
  have h3 : ¬ (matrixState .v86 false false [] []).iopl < 3#2 := by decide
  exact h3 hiopl

theorem matrixState_stackQuery : (matrixState m low ac ss pf).stackQuery .w16 = ⟨1#64, .w16⟩ := by
  change (matrixState m false false [] []).stackQuery .w16 = ⟨1#64, .w16⟩
  cases m <;> rfl

theorem matrixState_unaligned : (matrixState m low ac ss pf).unaligned .w16 = true := by
  change (matrixState m false false [] []).unaligned .w16 = true
  cases m <;> rfl

theorem matrixState_alignCheckApplies_iff :
    (matrixState m low ac ss pf).alignCheckApplies = true ↔ m ≠ .real ∧ ac = true := by
  rw [alignCheckApplies_iff (matrixState_launchPremises m low ac ss pf), alignCheckEnabled_fixed (b := ac) rfl]
  exact and_congr_right fun _ => and_iff_right (.inr rfl)

end MatrixState

/-- What the matrix of 60_exceptions.md section 1 says of a mode and an exception with its code. -/
def MatrixHasYes (m : Mode) : Fault → Prop
  | .ud => True
  | .ss code => code = if m = .real then none else some 0
  | .pf _ => m ≠ .real
  | .ac code => m ≠ .real ∧ code = 0
  | .gp code => m = .v86 ∧ code = 0

theorem matrixHasYes_of_exec {i : Instr} {s : State} {f : Fault} (h : exec i s = .fault f) : MatrixHasYes s.mode f := by
  have hcause := faultCause_of_exec h
  cases f with
  | ud => trivial
  | ss c => exact hcause.1
  | pf c => exact hcause.1
  | ac c =>
    obtain ⟨hc, happlies, -⟩ := hcause
    exact ⟨((alignCheckApplies_iff (launchPremises_of_fault h)).1 happlies).1, hc⟩
  | gp c =>
    obtain ⟨hc, hl, -⟩ := hcause
    exact ⟨hl.1, hc⟩

theorem exists_exec_of_matrixHasYes {m : Mode} {f : Fault} (h : MatrixHasYes m f) :
    ∃ i s, s.mode = m ∧ exec i s = .fault f := by
  cases f with
  | ud =>
    exact ⟨.popf [.lock], matrixState m false false [] [], rfl,
      exec_eq_ud_of_lock (matrixState_ready _ _ _ _ _ (by decide)) (by decide)⟩
  | ss c =>
    obtain rfl : c = _ := h
    exact ⟨.popf [], matrixState m false false [⟨1#64, .w16⟩] [], rfl,
      exec_eq_ss (matrixState_ready _ _ _ _ _ (by decide)) (by decide) (matrixState_not_guard _ _ _ _)
        (List.mem_singleton.2 (matrixState_stackQuery _ _ _ _ _))⟩
  | pf c =>
    have hac : ¬ (matrixState m false false [] [(⟨1#64, .w16⟩, c)]).alignCheckApplies = true := by
      simp [matrixState_alignCheckApplies_iff]
    refine ⟨.popf [], matrixState m false false [] [(⟨1#64, .w16⟩, c)], rfl,
      exec_eq_pf (p := (⟨1#64, .w16⟩, c)) (matrixState_ready _ _ _ _ _ (by decide)) (by decide)
        (matrixState_not_guard _ _ _ _) List.not_mem_nil (fun ha => hac ha.1) h ?_⟩
    exact List.find?_cons_of_pos (beq_iff_eq.2 (matrixState_stackQuery _ _ _ _ _).symm)
  | ac c =>
    obtain ⟨hm, rfl⟩ := h
    exact ⟨.popf [], matrixState m false true [] [], rfl,
      exec_eq_ac (matrixState_ready _ _ _ _ _ (by decide)) (by decide) (matrixState_not_guard _ _ _ _)
        List.not_mem_nil ((matrixState_alignCheckApplies_iff _ _ _ _ _).2 ⟨hm, rfl⟩)
        (matrixState_unaligned _ _ _ _ _)⟩
  | gp c =>
    obtain ⟨rfl, rfl⟩ := h
    exact ⟨.popf [], matrixState .v86 true false [] [], rfl,
      exec_eq_gp_of_guard (matrixState_ready _ _ _ _ _ (by decide)) (by decide) ⟨rfl, by decide⟩ (.inr rfl)⟩

end Sys2Proof.Machine

/-! ## The statements of 60_exceptions.md -/

namespace Sys2Proof

open Machine

/-- Settles O30: LOCK is tested first, and nothing else raises #UD. -/
theorem lockRaisesUdBeforeAnyOtherTest : Obligations.LockRaisesUdBeforeAnyOtherTest :=
  fun _ _ hr => ⟨faultCause_of_exec, exec_eq_ud_of_lock hr⟩

/-- Settles O31: IOPL 3 is outside the guard and the value test; IOPL < 3 with VME is the VME path. -/
theorem virtualModeGuardRaisesGpBeforeTheStackRead : Obligations.VirtualModeGuardRaisesGpBeforeTheStackRead := by
  intro i s hr hlock hm
  refine ⟨fun hiopl hg => exec_eq_gp_of_guard hr hlock ⟨hm, hiopl⟩ hg, fun hiopl ha => ?_, ?_⟩
  · have hl : ¬ VirtualLow s := fun hl => absurd (hiopl ▸ hl.2) (by decide)
    exact completes_of_not_virtualLow hr hlock ha hl
  · intro hiopl hsize hvme ha hvip htf
    rw [← hsize] at ha hvip htf
    exact completes_of_onVmePath hr hlock ha ⟨⟨hm, hiopl⟩, hvme, hsize⟩ hvip htf

/-- Settles O32: byte 1 holds the two bits that the value test reads. -/
theorem vmePathRaisesGpForTheStackValue : Obligations.VmePathRaisesGpForTheStackValue := by
  intro pre s hr hlock ha hl hvme hv
  rw [← stackValue_getLsbD_fi s .w16, ← stackValue_getLsbD_tf s .w16] at hv
  exact exec_eq_gp_of_value hr hlock ⟨hl, hvme, rfl⟩ ha hv

/-- Settles O33: the tests of the stack read in their order. -/
theorem stackReadFaultsInOrder : Obligations.StackReadFaultsInOrder :=
  fun _ _ hr hlock hg =>
    ⟨exec_eq_ss hr hlock hg, exec_eq_ac hr hlock hg, fun hss hac hm _ hp => exec_eq_pf hr hlock hg hss hac hm hp⟩

/-- Settles O34: #AC comes from the alignment test alone, whose two conditions are spelled out. -/
theorem alignmentCheckNeedsOldAcAtLevel3 : Obligations.AlignmentCheckNeedsOldAcAtLevel3 := by
  intro i s c h
  have hlaunch := launchPremises_of_fault h
  obtain ⟨hc, happlies, hunaligned⟩ := faultCause_of_exec h
  obtain ⟨hm, hlevel, henabled⟩ := (alignCheckApplies_iff hlaunch).1 happlies
  refine ⟨hc, hm, (unaligned_iff _ _).1 hunaligned, hlevel, fun hd => ?_, fun hfixed => ?_⟩
  · exact (alignCheckEnabled_default hlaunch hm hd).1 henabled
  · exact absurd ((alignCheckEnabled_fixed hfixed).symm.trans henabled) (by decide)

/-- Settles O35: each exception's cause gives its mode and condition, and a state of each mode raises it. -/
theorem exceptionsFollowTheMatrixOfModes : Obligations.ExceptionsFollowTheMatrixOfModes := by
  constructor
  · intro m f
    have hmatrix : (∃ i s, s.mode = m ∧ exec i s = .fault f) ↔ MatrixHasYes m f := by
      refine ⟨?_, exists_exec_of_matrixHasYes⟩
      rintro ⟨i, s, rfl, h⟩
      exact matrixHasYes_of_exec h
    cases f <;> exact hmatrix
  · intro i s f h
    have hcause := faultCause_of_exec h
    cases f with
    | ud => exact hcause
    | ss c => exact hcause.2
    | pf c => exact hcause.2
    | ac c =>
      obtain ⟨-, happlies, -⟩ := hcause
      obtain ⟨-, hlevel, henabled⟩ := (alignCheckApplies_iff (launchPremises_of_fault h)).1 happlies
      exact ⟨henabled, hlevel⟩
    | gp c =>
      obtain ⟨-, hl, hvalue⟩ := hcause
      rw [stackValue_getLsbD_fi, stackValue_getLsbD_tf] at hvalue
      exact ⟨hl.2, hvalue⟩

end Sys2Proof
